-- ==== Sys2Proof/Word.lean ====
section
/-! DEFINITION. The machine's only data type, the byte, and the index of a register. -/

namespace Sys2Proof

/-- A byte: a register, a memory cell, the program counter, an operand (R6, R7, R9). -/
abbrev Byte := BitVec 8

/-- The index of one of the eight registers (R6, R13). -/
abbrev RegIdx := Fin 8

end Sys2Proof
end

