-- ==== Sys2Proof/Config.lean ====
section
/-! DEFINITION. The parameters of 00_scope.md section 4. The spec leaves no result of an executing
instruction open, so there is no free value here. -/

namespace Sys2Proof

/-- MEMSIZE, the number of memory cells (R7), which is also the largest program (R10). -/
abbrev Config.memSize : Nat := 256

/-- SP_INDEX: register 7 is the Stack Pointer (R8, R16). -/
abbrev Config.spIndex : RegIdx := 7

/-- The default of the parameter SP_INIT (R8, D1). PRESUMED: the spec takes it from the LS-8 family, not
from its source; unsafe for a claim that rests on the value (log entry 1). -/
def Config.spInit : Byte := 0xF4#8

/-- The reset vector (R19). -/
def Config.resetPc : Byte := 0#8

end Sys2Proof
end

