-- ==== Sys2Proof/Machine/State.lean ====
section
/-! DEFINITION. The architectural state, exactly R12's list, as plain data; the fault causes; the state after
reset. -/

namespace Sys2Proof.Machine

/-- The dispatcher's state machine (R24). -/
inductive Status where
  /-- Steps are taken (R65). -/
  | running
  /-- The normal end, entered by HLT alone (R64). -/
  | halted
  /-- The end by a fault (R64, D3). -/
  | faulted
  deriving DecidableEq, Repr

/-- The fault causes of R93. -/
inductive Cause where
  /-- The dispatcher, on an opcode byte outside the table (R94). -/
  | unknownOpcode
  /-- The fetch, a register-index check, an SP adjustment or the PC advance (R95). -/
  | addressOutOfRange
  /-- The ALU, on an operation other than ADD; no instruction reaches it (R96). -/
  | unsupportedAluOperation
  /-- The load operation, never a step (R97). -/
  | loadOverflow
  deriving DecidableEq, Repr

/-- `raise Cause(value)` of the pseudocode (00_scope.md section 5, R68). -/
structure Raise where
  cause : Cause
  value : Int
  deriving DecidableEq, Repr

/-- The fault record (R25, R98). -/
structure FaultRecord where
  /-- Which cause. -/
  cause : Cause
  /-- The address of the faulting instruction's opcode byte. -/
  pc : Byte
  /-- The byte fetched at that address. -/
  opcode : Byte
  /-- The offending address, register index, opcode or operation code. -/
  value : Int
  deriving DecidableEq, Repr

/-- The memory (R31) as the cells that do not hold the reset contents, addresses strictly rising; see
Memory.wf. An unlisted address reads as Memory.unlisted. -/
abbrev Memory := List Host.Cell

/-- The architectural state of the CORE (R12), nothing added. -/
structure State where
  /-- The Register File: x[0]..x[7] (R13); x[7] is the Stack Pointer (R16). -/
  x : Vector Byte 8
  /-- The Program Counter (R19, R20). -/
  pc : Byte
  /-- M[0..255] (R31). -/
  mem : Memory
  /-- RUNNING, HALTED or FAULTED (R24). -/
  status : Status
  /-- None, or the record of the fault taken (R25). -/
  fault : Option FaultRecord
  /-- The output stream, in the order PRN emitted it (R26). -/
  out : List Byte
  deriving DecidableEq, Repr

/-- How a step of the MODEL can stop. Empty: every fault the spec names is a step to a FAULTED state (R68,
R100), which the model takes as a next state (DEDUCED, log entry 9); nobody raises a stop, so there is nothing safe or
unsafe to say of one. -/
inductive Fault : Type
  deriving DecidableEq, Repr

/-- Why the model would give an instruction no meaning. -/
inductive Refusal where
  /-- An arm of exec whose instruction has no meaning yet: none is left, so nobody raises it. Safe: the model
  would stop where the hardware goes on. -/
  | notModelled (mnemonic : String)
  deriving DecidableEq, Repr

/-- Machine creation with the parameter SP_INIT (R111): x[0]..x[6] = 0 (R18; DESIGN CHOICE, the spec's D2,
unsafe, log entry 2), x[7] = SP_INIT (R18), pc = 0 (R19), every cell 0 (R34), RUNNING (R24), no fault (R25),
no output (R26). -/
def State.create (spInit : Byte) : State where
  x := (Vector.replicate 8 0#8).set 7 spInit
  pc := Config.resetPc
  mem := []
  status := .running
  fault := none
  out := []

/-- The machine right after reset, with the default SP_INIT (R8, R111; PRESUMED, unsafe, log entry 1). -/
def State.reset : State := State.create Config.spInit

end Sys2Proof.Machine
end

