-- ==== Sys2Proof/Machine/Flags.lean ====
section
/-! DEFINITION. What an arithmetic result leaves behind. The CORE has no flags (R23) and no carry, overflow or
other indication is produced (R81): only the low 8 bits of the exact result. -/

namespace Sys2Proof.Machine

/-- The exact sum of the operands read as unsigned integers, then its low 8 bits (R81). -/
def sumMod256 (u v : Byte) : Byte := BitVec.ofNat 8 ((u.toNat + v.toNat) % 256)

/-- The exact product of the operands read as unsigned integers, then its low 8 bits (R81). -/
def productMod256 (u v : Byte) : Byte := BitVec.ofNat 8 ((u.toNat * v.toNat) % 256)

end Sys2Proof.Machine
end

