-- ==== Sys2Proof/Machine/Ops.lean ====
section
/-! DEFINITION. The named operations over memory, registers, the program counter, the stack pointer and the
output; taking a fault; and the end of an instruction. There is no return from a fault (R101). -/

namespace Sys2Proof.Machine

/-- What an address that the memory does not list reads as: the reset contents, 0 (R34; DEDUCED, safe, log entry 18). -/
def Memory.unlisted : Byte := 0#8

/-- The byte at an address (R33). -/
def Memory.read : Memory → Nat → Byte
  | [], _ => Memory.unlisted
  | (k, v) :: m, a => if k = a then v else Memory.read m a

/-- Set the byte at an address and no other (R33, R39), keeping the canonical form. -/
def Memory.write : Memory → Nat → Byte → Memory
  | [], a, v => if v = Memory.unlisted then [] else [(a, v)]
  | (k, w) :: m, a, v =>
    if a < k then (if v = Memory.unlisted then (k, w) :: m else (a, v) :: (k, w) :: m)
    else if a = k then (if v = Memory.unlisted then m else (a, v) :: m)
    else (k, w) :: Memory.write m a v

/-- Set consecutive bytes from an address upward, in order (R34, R114). -/
def Memory.writeBytes : Memory → Nat → List Byte → Memory
  | m, _, [] => m
  | m, a, v :: vs => Memory.writeBytes (m.write a v) (a + 1) vs

/-- The canonical form from an address upward: addresses strictly rising and inside the memory, no entry
equal to what an unlisted address reads as. -/
def Memory.wfFrom : Nat → Memory → Bool
  | _, [] => true
  | lo, (k, v) :: m =>
    decide (lo ≤ k) && decide (k < Config.memSize) && decide (v ≠ Memory.unlisted) && Memory.wfFrom (k + 1) m

/-- The canonical form of a memory. -/
def Memory.wf (m : Memory) : Bool := Memory.wfFrom 0 m

/-- `x[i]` (00_scope.md section 5). -/
def State.reg (s : State) (i : RegIdx) : Byte := s.x[i]

/-- `x[i] <- v`; no register is hardwired (R14). -/
def State.setReg (s : State) (i : RegIdx) (v : Byte) : State := { s with x := s.x.set i.val v i.isLt }

/-- SP, a name for `x[7]` (R16). -/
def State.sp (s : State) : Byte := s.reg Config.spIndex

/-- `SP <- v`. -/
def State.setSp (s : State) (v : Byte) : State := s.setReg Config.spIndex v

/-- `pc <- t`, how CALL and RET end (R73). -/
def State.setPc (s : State) (t : Byte) : State := { s with pc := t }

/-- The state with another memory. -/
def State.setMem (s : State) (m : Memory) : State := { s with mem := m }

/-- `status <- HALTED` (R79). -/
def State.halt (s : State) : State := { s with status := .halted }

/-- `Output(v)`: append one byte to the output stream (R26, R78). -/
def State.emit (s : State) (v : Byte) : State := { s with out := s.out ++ [v] }

/-- The address check of R36: an address outside 0..255 raises AddressOutOfRange with the address. -/
def checkAddress (addr : Int) : Except Raise Nat :=
  if addr < 0 ∨ addr > 255 then .error ⟨.addressOutOfRange, addr⟩ else .ok addr.toNat

/-- `MemRead(addr, 1)` (R35, R36). -/
def memRead (addr : Int) (s : State) : Except Raise Byte := do
  let a ← checkAddress addr
  return s.mem.read a

/-- `MemWrite(addr, 1, v)` (R35, R36). -/
def memWrite (addr : Int) (v : Byte) (s : State) : Except Raise State := do
  let a ← checkAddress addr
  return s.setMem (s.mem.write a v)

/-- `advance(L)`: the checked sequential PC update (R72; DESIGN CHOICE, the spec's D11, log entry 13); the pc never
wraps (R22). -/
def advance (len : Nat) (s : State) : Except Raise State :=
  if s.pc.toNat + len > 255 then .error ⟨.addressOutOfRange, s.pc.toNat + len⟩
  else .ok (s.setPc (BitVec.ofNat 8 (s.pc.toNat + len)))

/-- `spdec()`: the checked SP decrement of PUSH and CALL (R85). -/
def spdec (s : State) : Except Raise State :=
  if s.sp = 0#8 then .error ⟨.addressOutOfRange, -1⟩ else .ok (s.setSp (s.sp - 1#8))

/-- `spinc()`: the checked SP increment of POP and RET (R86; DESIGN CHOICE, the spec's D10, safe, log entry 13). -/
def spinc (s : State) : Except Raise State :=
  if s.sp = 255#8 then .error ⟨.addressOutOfRange, 256⟩ else .ok (s.setSp (s.sp + 1#8))

/-- Taking a fault (R68, R100): on the state BEFORE the cycle, status becomes FAULTED and the record is
written; nothing else changes, and control goes nowhere (DESIGN CHOICE, the spec's D4, unsafe for a claim that reads
registers, pc or memory of a FAULTED state, log entry 3). The record's opcode is the byte at `pc` in that
state, which is the byte the cycle fetched (R25, R66; DEDUCED, safe, log entry 5). -/
def State.takeFault (s : State) (r : Raise) : State :=
  { s with
    status := .faulted
    fault := some { cause := r.cause, pc := s.pc, opcode := s.mem.read s.pc.toNat, value := r.value } }

/-- A raise in the cycle that began in `s` (R68): a step to the FAULTED state. -/
def raised (s : State) (r : Raise) : Host.Outcome State Fault Refusal := .next (s.takeFault r)

/-- The end of an instruction that began in `s` (R68): its working copy becomes the state, or, if it raised,
the copy is discarded and the fault is taken on `s`. -/
def commit (s : State) : Except Raise State → Host.Outcome State Fault Refusal
  | .ok s' => .next s'
  | .error r => raised s r

/-- HALTED and FAULTED are terminal: the CORE makes no step and changes no state (R64, R65, R101; DEDUCED:
answered as a next state equal to the old one, safe, log entry 4). -/
def stopped (s : State) : Host.Outcome State Fault Refusal := .next s

end Sys2Proof.Machine
end

