-- ==== Sys2Proof/Machine/Operands.lean ====
section
/-! DEFINITION. The operand forms: a register operand, checked as a whole byte (R54, R70); the immediate of
LDI is the byte itself (R55) and needs no operation. -/

namespace Sys2Proof.Machine

/-- `regidx(r)`: the register-index check made at decode, before the first execute statement (R70; the byte
is not masked to its low 3 bits, R54). Only operands used as indices are checked (DESIGN CHOICE, the spec's D8,
safe as to completion, log entry 11). -/
def regidx (r : Byte) : Except Raise RegIdx :=
  if h : r.toNat ≤ 7 then .ok ⟨r.toNat, by omega⟩ else .error ⟨.addressOutOfRange, r.toNat⟩

end Sys2Proof.Machine
end

