-- ==== Sys2Proof/Machine/Arithmetic.lean ====
section
/-! DEFINITION. The ALU, ADD and MUL (42_arithmetic.md). -/

namespace Sys2Proof.Machine

/-- An operation asked of the ALU (R80). ADD is its only one; any other is known by the operation code the
fault reports (R98). DESIGN CHOICE: the spec gives ALU operations no numbers, so ADD has none here (safe, log
entry 7). -/
inductive AluOp where
  /-- ADD. -/
  | add
  /-- Any other operation, with its code. -/
  | other (code : Int)
  deriving DecidableEq, Repr

/-- `ALU(operation, i, j)` (R80): x[i] <- (x[i] + x[j]) mod 256 for ADD, register j read only; any other
operation raises UnsupportedAluOperation, which no instruction reaches (R96). -/
def alu (operation : AluOp) (i j : RegIdx) (s : State) : Except Raise State :=
  match operation with
  | .add => .ok (s.setReg i (sumMod256 (s.reg i) (s.reg j)))
  | .other code => .error ⟨.unsupportedAluOperation, code⟩

/-- ADD Ra,Rb (R82), through the ALU; on R7 with the ALU's wraparound, not the checked SP adjustment. -/
def execAdd (a b : Byte) (s : State) : Host.Outcome State Fault Refusal := commit s do
  let i ← regidx a
  let j ← regidx b
  let s' ← alu .add i j s
  advance 3 s'

/-- MUL Ra,Rb (R83), computed by the dispatcher and not by the ALU (R80, C10; DESIGN CHOICE, the spec's D12, safe, log
entry 19). -/
def execMul (a b : Byte) (s : State) : Host.Outcome State Fault Refusal := commit s do
  let i ← regidx a
  let j ← regidx b
  advance 3 (s.setReg i (productMod256 (s.reg i) (s.reg j)))

end Sys2Proof.Machine
end

