-- ==== Sys2Proof/Machine/LoadOutputHalt.lean ====
section
/-! DEFINITION. LDI, PRN and HLT (41_load_output_halt.md). -/

namespace Sys2Proof.Machine

/-- LDI Ra,imm (R77): the whole immediate byte, no extension (R55). -/
def execLdi (a imm : Byte) (s : State) : Host.Outcome State Fault Refusal := commit s do
  let i ← regidx a
  advance 3 (s.setReg i imm)

/-- PRN Ra (R78): append x[a] to the output stream. -/
def execPrn (a : Byte) (s : State) : Host.Outcome State Fault Refusal := commit s do
  let i ← regidx a
  advance 2 (s.emit (s.reg i))

/-- HLT (R79): the normal end; the pc advances by 1. -/
def execHlt (s : State) : Host.Outcome State Fault Refusal := commit s (advance 1 s.halt)

end Sys2Proof.Machine
end

