-- ==== Sys2Proof/Machine/Stack.lean ====
section
/-! DEFINITION. PUSH and POP (43_stack.md). Statements run in order and see earlier writes (R71), which fixes
PUSH R7 and POP R7 (DESIGN CHOICE, the spec's D9, unsafe for programs that name R7 there, log
entry 12). -/

namespace Sys2Proof.Machine

/-- PUSH Ra (R87): SP is decremented first, and x[a] is read after that. -/
def execPush (a : Byte) (s : State) : Host.Outcome State Fault Refusal := commit s do
  let i ← regidx a
  let s₁ ← spdec s
  let s₂ ← memWrite s₁.sp.toNat (s₁.reg i) s₁
  advance 2 s₂

/-- POP Ra (R88): the byte at SP goes to x[a], then SP as it is after that write is incremented. -/
def execPop (a : Byte) (s : State) : Host.Outcome State Fault Refusal := commit s do
  let i ← regidx a
  let v ← memRead s.sp.toNat s
  let s₁ ← spinc (s.setReg i v)
  advance 2 s₁

end Sys2Proof.Machine
end

