-- ==== Sys2Proof/Machine/Subroutine.lean ====
section
/-! DEFINITION. CALL and RET (44_subroutine.md), the only instructions that set the pc (R21, R73). -/

namespace Sys2Proof.Machine

/-- CALL Ra (R89): the return address is the one byte pc + 2; the target x[a] is read after the SP decrement,
so CALL R7 jumps to the new SP (DESIGN CHOICE, the spec's D9, unsafe for CALL R7, log entry 12). A cycle reaches this with pc ≤ 253 (R66); at 254 and 255, where no cycle
calls it, the byte addition wraps (DEDUCED, safe, log entry 6). -/
def execCall (a : Byte) (s : State) : Host.Outcome State Fault Refusal := commit s do
  let i ← regidx a
  let s₁ ← spdec s
  let s₂ ← memWrite s₁.sp.toNat (s.pc + 2#8) s₁
  return s₂.setPc (s₂.reg i)

/-- RET (R90): the byte at SP becomes the pc and SP is incremented. -/
def execRet (s : State) : Host.Outcome State Fault Refusal := commit s do
  let t ← memRead s.sp.toNat s
  let s₁ ← spinc s
  return s₁.setPc t

end Sys2Proof.Machine
end

