-- ==== Sys2Proof/Syntax.lean ====
section
/-! DEFINITION. The instruction set (R3): one constructor per row of spec/opcode_table.json, in its order. -/

namespace Sys2Proof

/-- An instruction with its operand bytes as fetched (R50, R53). A register operand is the WHOLE byte
(R54): 0..7 name a register, 8..255 raise AddressOutOfRange when the instruction runs (R70), so they are
part of the syntax. -/
inductive Instr where
  /-- LDI Ra,imm (R77). -/
  | ldi (a imm : Byte)
  /-- PRN Ra (R78). -/
  | prn (a : Byte)
  /-- HLT (R79). -/
  | hlt
  /-- MUL Ra,Rb (R83). -/
  | mul (a b : Byte)
  /-- ADD Ra,Rb (R82). -/
  | add (a b : Byte)
  /-- PUSH Ra (R87). -/
  | push (a : Byte)
  /-- POP Ra (R88). -/
  | pop (a : Byte)
  /-- CALL Ra (R89). -/
  | call (a : Byte)
  /-- RET (R90). -/
  | ret
  deriving DecidableEq, Repr

/-- The four instruction formats (R53). -/
inductive Format where
  /-- Opcode only. -/
  | f1
  /-- Opcode and one register index. -/
  | f2r
  /-- Opcode and two register indices. -/
  | f3rr
  /-- Opcode, a register index and an immediate byte. -/
  | f3ri
  deriving DecidableEq, Repr

/-- The format of each instruction (R53). -/
def Instr.format : Instr → Format
  | .ldi _ _ => .f3ri
  | .prn _ => .f2r
  | .hlt => .f1
  | .mul _ _ => .f3rr
  | .add _ _ => .f3rr
  | .push _ => .f2r
  | .pop _ => .f2r
  | .call _ => .f2r
  | .ret => .f1

/-- The operand bytes used as register indices, operand A before operand B (R70). -/
def Instr.regOperands : Instr → List Byte
  | .ldi a _ => [a]
  | .prn a => [a]
  | .hlt => []
  | .mul a b => [a, b]
  | .add a b => [a, b]
  | .push a => [a]
  | .pop a => [a]
  | .call a => [a]
  | .ret => []

end Sys2Proof
end

