-- ==== Sys2Proof/WellFormed.lean ====
section
/-! DEFINITION. Well-formed instructions: every register operand names a register (R54). The one check is
per operand; an immediate has no illegal value (R59). An ill-formed instruction still has a meaning: it
raises AddressOutOfRange (R70). -/

namespace Sys2Proof

/-- Only 0..7 name a register (R54). -/
def isRegister (r : Byte) : Bool := decide (r.toNat ≤ 7)

/-- Every register operand of the instruction is in 0..7 (R54). -/
def Instr.wellFormed (i : Instr) : Bool := i.regOperands.all isRegister

end Sys2Proof
end

