-- ==== Sys2Proof/Decode.lean ====
section
/-! DEFINITION. The decoder (R57), the lengths (R51) and the encoder (R50, R53). -/

namespace Sys2Proof

/-- Why the decoder refuses. -/
inductive DecodeError where
  /-- An opcode byte outside the nine (R59); the dispatcher raises UnknownOpcode with it (R67, R94). -/
  | unknownOpcode (op : Byte)
  deriving DecidableEq, Repr

/-- Dispatch on the whole opcode byte by a chain of equality comparisons (R57, R67). `a` and `b` are the
candidate operand bytes; one the instruction does not use is ignored (R56). -/
def decode (op a b : Byte) : Except DecodeError Instr :=
  if op = 0x82#8 then .ok (.ldi a b)
  else if op = 0x47#8 then .ok (.prn a)
  else if op = 0x01#8 then .ok .hlt
  else if op = 0xA2#8 then .ok (.mul a b)
  else if op = 0xA0#8 then .ok (.add a b)
  else if op = 0x45#8 then .ok (.push a)
  else if op = 0x46#8 then .ok (.pop a)
  else if op = 0x50#8 then .ok (.call a)
  else if op = 0x11#8 then .ok .ret
  else .error (.unknownOpcode op)

/-- The opcode column of R51's table. -/
def Instr.opcode : Instr → Byte
  | .ldi _ _ => 0x82#8
  | .prn _ => 0x47#8
  | .hlt => 0x01#8
  | .mul _ _ => 0xA2#8
  | .add _ _ => 0xA0#8
  | .push _ => 0x45#8
  | .pop _ => 0x46#8
  | .call _ => 0x50#8
  | .ret => 0x11#8

/-- The length column of R51's table; CALL and RET with the bytes they occupy (C2). -/
def Instr.length : Instr → Nat
  | .ldi _ _ => 3
  | .prn _ => 2
  | .hlt => 1
  | .mul _ _ => 3
  | .add _ _ => 3
  | .push _ => 2
  | .pop _ => 2
  | .call _ => 2
  | .ret => 1

/-- The bytes of an instruction, at ascending addresses: opcode, operand A, operand B (R37, R50, R53). -/
def encode : Instr → List Byte
  | .ldi a imm => [0x82#8, a, imm]
  | .prn a => [0x47#8, a]
  | .hlt => [0x01#8]
  | .mul a b => [0xA2#8, a, b]
  | .add a b => [0xA0#8, a, b]
  | .push a => [0x45#8, a]
  | .pop a => [0x46#8, a]
  | .call a => [0x50#8, a]
  | .ret => [0x11#8]

/-- Decode the first three bytes of a list, as one cycle fetches them (R66); a byte the list lacks is taken
as 0, which only matters where the list ends before the instruction does. -/
def decodeBytes (l : List Byte) : Except DecodeError Instr :=
  decode (l.getD 0 0#8) (l.getD 1 0#8) (l.getD 2 0#8)

/-- The three bytes of an instruction whose bits, numbered as spec/opcode_table.json numbers them, are `w`:
the first byte is bits 7..0, the second bits 15..8, the third bits 23..16; bits from `nbits` on are 0. -/
def tableBytes (nbits w : Nat) : List Byte :=
  [BitVec.ofNat 8 (w % 2 ^ nbits), BitVec.ofNat 8 (w % 2 ^ nbits / 256),
    BitVec.ofNat 8 (w % 2 ^ nbits / 65536)]

/-- What the decoder reads from a word of the opcode table. -/
def decodeTableWord (nbits w : Nat) : Option Instr :=
  (decodeBytes (tableBytes nbits w)).toOption

end Sys2Proof
end

