-- ==== Sys2Proof/Machine/Fetch.lean ====
section
/-! DEFINITION. The first half of a cycle: the fetch (R66) and the decode (R67), and the placing of an
instruction where the next fetch finds it. -/

namespace Sys2Proof.Machine

/-- Fetch the opcode and the two candidate operand bytes, each a checked read, in this order (R66): at pc 254
and 255 the operand read raises AddressOutOfRange(256) whatever the opcode (DESIGN CHOICE, the spec's D6; safe,
log entry 10). -/
def fetch (s : State) : Except Raise (Byte × Byte × Byte) := do
  let op ← memRead s.pc.toNat s
  let a ← memRead (s.pc.toNat + 1) s
  let b ← memRead (s.pc.toNat + 2) s
  return (op, a, b)

/-- Decode the fetched bytes; an unknown opcode raises UnknownOpcode with the opcode (R67, R94). -/
def decodeOrRaise (op a b : Byte) : Except Raise Instr :=
  match decode op a b with
  | .ok i => .ok i
  | .error (.unknownOpcode o) => .error ⟨.unknownOpcode, o.toNat⟩

/-- The instruction of the cycle that begins in `s`, or what its fetch or decode raises, the fetch first
(R66, R67, R69; DESIGN CHOICE, the spec's D7, unsafe only for the recorded cause, log entry 11). -/
def fetchInstr (s : State) : Except Raise Instr := do
  let (op, a, b) ← fetch s
  decodeOrRaise op a b

/-- Store an instruction's bytes from `pc` upward, as far as the memory reaches. -/
def placeAtPc (s : State) (bytes : List Byte) : State :=
  s.setMem (s.mem.writeBytes s.pc.toNat (bytes.take (Config.memSize - s.pc.toNat)))

end Sys2Proof.Machine
end

