-- ==== Sys2Proof/Machine/Step.lean ====
section
/-! DEFINITION. One step is one whole cycle: fetch, decode, execute, advance (R65, R74). -/

namespace Sys2Proof.Machine

/-- One step (R64 to R74): only while RUNNING; a raise of the fetch or the decode is a fault of this cycle. -/
def step (s : State) : Host.Outcome State Fault Refusal :=
  if s.status = .running then
    match fetchInstr s with
    | .ok i => exec i s
    | .error r => raised s r
  else stopped s

/-- `s` with the instruction whose bits are `w` (numbered as in spec/opcode_table.json, zeros from `nbits` on)
stored at the pc, where the next step fetches; nothing but those three bytes changes. It stands for the load of
a program (DESIGN CHOICE, safe, log entry 8). The next step runs it where `s` is RUNNING and its pc is at most 253, as at reset. -/
def State.withFetchWord (s : State) (nbits w : Nat) : State := placeAtPc s (tableBytes nbits w)

end Sys2Proof.Machine
end

