-- ==== Sys2Proof/Machine/HostInterface.lean ====
section
/-! DEFINITION. What the host does to the CORE and sees of it (R109): create (State.create) and load before
the first step; the trace port; what a run shows at its end. -/

namespace Sys2Proof.Machine

/-- The numeric code of a cause (R93; DESIGN CHOICE, the spec's D5, safe, log entry 16). -/
def Cause.code : Cause → Nat
  | .unknownOpcode => 1
  | .addressOutOfRange => 2
  | .unsupportedAluOperation => 3
  | .loadOverflow => 4

/-- Code 0 means no fault (R93). -/
def faultCode : Option FaultRecord → Nat
  | none => 0
  | some r => r.cause.code

/-- The result of the load operation (R97, R114). -/
inductive LoadResult where
  /-- The program is in memory and the machine may take steps. -/
  | loaded (s : State)
  /-- LoadOverflow with the program's byte count; the machine, as it was, is not started. -/
  | overflow (count : Nat) (s : State)
  deriving DecidableEq, Repr

/-- `Load(bytes)` (R114): the program from address 0, in order, or LoadOverflow with nothing changed. The host
performs it once, before the first step (R109; DESIGN CHOICE, the spec's D16, safe, log entry 14). -/
def State.load (s : State) (bytes : List Byte) : LoadResult :=
  if bytes.length > Config.memSize then .overflow bytes.length s
  else .loaded (s.setMem (s.mem.writeBytes 0 bytes))

/-- The start of a run: reset, then one load (R113). -/
def boot (spInit : Byte) (bytes : List Byte) : LoadResult := (State.create spInit).load bytes

/-- A record of the trace port (R106). -/
structure TraceRecord where
  pc : Byte
  op : Byte
  a : Byte
  b : Byte
  x : Vector Byte 8
  deriving DecidableEq, Repr

/-- What the trace port presents in the cycle that begins in `s`: the fetched bytes and the registers before
the instruction executes; nothing for a cycle whose fetch faults, or where there is no cycle (R106; DESIGN
CHOICE, the spec's D17, unsafe for a claim about the trace, log entry 15). -/
def State.trace (s : State) : Option TraceRecord :=
  if s.status = .running then
    match fetch s with
    | .ok (op, a, b) => some { pc := s.pc, op := op, a := a, b := b, x := s.x }
    | .error _ => none
  else none

/-- What a run shows the host at its end (R76). -/
structure Report where
  status : Status
  fault : Option FaultRecord
  out : List Byte
  deriving DecidableEq, Repr

/-- Status, fault record and output stream (R76). -/
def State.report (s : State) : Report := { status := s.status, fault := s.fault, out := s.out }

/-- What the host may inspect after HALTED (R76, R109). -/
structure Inspection where
  x : Vector Byte 8
  pc : Byte
  mem : Memory
  deriving DecidableEq, Repr

/-- Registers, pc and memory, after HALTED only (R76, R109). -/
def State.inspect (s : State) : Option Inspection :=
  if s.status = .halted then some { x := s.x, pc := s.pc, mem := s.mem } else none

/-- A process exit code made from the end of a run (R110; DESIGN CHOICE, the spec's D18, safe, log entry 16): 0 for HALTED, the cause
code for FAULTED; none while RUNNING. -/
def State.exitCode (s : State) : Option Nat :=
  match s.status with
  | .running => none
  | .halted => some 0
  | .faulted => some (faultCode s.fault)

/-- The exit code of a load that failed: the code of LoadOverflow (R110). -/
def LoadResult.exitCode : LoadResult → Option Nat
  | .loaded _ => none
  | .overflow _ _ => some (Cause.code .loadOverflow)

end Sys2Proof.Machine
end

