-- ==== Sys2Proof/Safety.lean ====
section
/-! DEFINITION. What claims are stated in terms of: the state invariant, the first fault of a cycle in the
spec's order, the register use of each instruction, runs of a loaded program and how they end. -/

namespace Sys2Proof

open Machine

/-- The register an operand byte names, if any (R54). -/
def regOf (r : Byte) : List RegIdx := if h : r.toNat ≤ 7 then [⟨r.toNat, by omega⟩] else []

/-- The "reads" column of R15's table. -/
def Instr.reads : Instr → List RegIdx
  | .ldi _ _ => []
  | .prn a => regOf a
  | .hlt => []
  | .mul a b => regOf a ++ regOf b
  | .add a b => regOf a ++ regOf b
  | .push a => 7 :: regOf a
  | .pop _ => [7]
  | .call a => 7 :: regOf a
  | .ret => [7]

/-- The "writes" column of R15's table. -/
def Instr.writes : Instr → List RegIdx
  | .ldi a _ => regOf a
  | .prn _ => []
  | .hlt => []
  | .mul a _ => regOf a
  | .add a _ => regOf a
  | .push _ => [7]
  | .pop a => regOf a ++ [7]
  | .call _ => [7]
  | .ret => [7]

/-- CALL and RET set the pc themselves (R21, R73; "sets_pc" of the opcode table). -/
def Instr.setsPc : Instr → Bool
  | .call _ => true
  | .ret => true
  | _ => false

/-- The first raise among the register-index checks, operand A before operand B (R69 item 3, R70). -/
def indexRaise (i : Instr) : Option Raise :=
  match i.regOperands.find? (fun r => decide (r.toNat > 7)) with
  | some r => some ⟨.addressOutOfRange, r.toNat⟩
  | none => none

/-- The execute-stage SP check of an instruction whose register operands are in range (R69 item 4, R85, R86,
R88): the decrement of PUSH and CALL, the increment of POP and RET, the latter on the popped byte for POP R7. -/
def stackRaise (i : Instr) (s : State) : Option Raise :=
  match i with
  | .push _ => if s.sp = 0#8 then some ⟨.addressOutOfRange, -1⟩ else none
  | .call _ => if s.sp = 0#8 then some ⟨.addressOutOfRange, -1⟩ else none
  | .pop a =>
    if (if a = 7#8 then s.mem.read s.sp.toNat else s.sp) = 255#8 then some ⟨.addressOutOfRange, 256⟩ else none
  | .ret => if s.sp = 255#8 then some ⟨.addressOutOfRange, 256⟩ else none
  | _ => none

/-- The sequential advance past address 255 (R69 item 5, R72). -/
def advanceRaise (i : Instr) (s : State) : Option Raise :=
  if i.setsPc = false ∧ s.pc.toNat + i.length > 255 then some ⟨.addressOutOfRange, 256⟩ else none

/-- The fault of the cycle that begins in `s`, by R69's order: operand fetch, unknown opcode, register indices,
stack pointer, advance. Written from R69's and R95's tables, not from the meanings. -/
def firstRaise (s : State) : Option Raise :=
  if s.pc.toNat ≥ 254 then some ⟨.addressOutOfRange, 256⟩
  else
    match decode (s.mem.read s.pc.toNat) (s.mem.read (s.pc.toNat + 1)) (s.mem.read (s.pc.toNat + 2)) with
    | .error _ => some ⟨.unknownOpcode, (s.mem.read s.pc.toNat).toNat⟩
    | .ok i => (indexRaise i).or ((stackRaise i s).or (advanceRaise i s))

/-- The nine opcode values of R51's table. -/
def opcodes : List Byte := [0x82#8, 0x47#8, 0x01#8, 0xA2#8, 0xA0#8, 0x45#8, 0x46#8, 0x50#8, 0x11#8]

/-- Every byte of memory reads as before. -/
def KeepsMemory (s t : State) : Prop := ∀ b, t.mem.read b = s.mem.read b

/-- Every byte of memory outside address `a` reads as before. -/
def KeepsMemoryExcept (a : Nat) (s t : State) : Prop := ∀ b, b ≠ a → t.mem.read b = s.mem.read b

/-- Every register reads as before. -/
def KeepsRegisters (s t : State) : Prop := ∀ j, t.reg j = s.reg j

/-- Every register but `i` reads as before. -/
def KeepsRegistersExcept (i : RegIdx) (s t : State) : Prop := ∀ j, j ≠ i → t.reg j = s.reg j

/-- Status and fault record, the only control state (R27), are as before. -/
def KeepsControl (s t : State) : Prop := t.status = s.status ∧ t.fault = s.fault

/-- What a fault record of this hardware can say (R95, R96, R97, R98): it names the opcode byte at the pc, an
unknown opcode with itself as value, or an address -1 or 256 or a register index 8..255; the causes
UnsupportedAluOperation and LoadOverflow are never a step's. -/
def RecordOk (s : State) (r : FaultRecord) : Prop :=
  r.pc = s.pc ∧ r.opcode = s.mem.read s.pc.toNat ∧
    ((r.cause = .unknownOpcode ∧ r.value = r.opcode.toNat ∧
        decode r.opcode 0#8 0#8 = .error (.unknownOpcode r.opcode)) ∨
      (r.cause = .addressOutOfRange ∧ (r.value = -1 ∨ (8 ≤ r.value ∧ r.value ≤ 256))))

/-- The state invariant: the memory is in its canonical form inside 0..255 (R31); a fault record stands exactly
in FAULTED (R25) and is one this hardware can write; a HALTED machine stands one past an HLT byte at an
address no greater than 253 (R64, R79, R115). -/
structure Inv (s : State) : Prop where
  mem_wf : s.mem.wf = true
  no_fault : s.status ≠ .faulted → s.fault = none
  fault_record : s.status = .faulted → ∃ r, s.fault = some r ∧ RecordOk s r
  halted_after_hlt : s.status = .halted →
    1 ≤ s.pc.toNat ∧ s.pc.toNat ≤ 254 ∧ s.mem.read (s.pc.toNat - 1) = 0x01#8

/-- After `k` steps from the boot of a program, the run is in `s` (R113). -/
def RunsTo (spInit : Byte) (program : List Byte) (k : Nat) (s : State) : Prop :=
  ∃ s₀, boot spInit program = .loaded s₀ ∧ core.run k s₀ = .next s

/-- A run that ends as it should: HLT executed (R75). -/
def EndsNormally (spInit : Byte) (program : List Byte) : Prop :=
  ∃ k s, RunsTo spInit program k s ∧ s.status = .halted

/-- A safe run: no step of it is a fault (R75, R92). -/
def NeverFaults (spInit : Byte) (program : List Byte) : Prop :=
  ∀ k s, RunsTo spInit program k s → s.status ≠ .faulted

end Sys2Proof
end

