-- ==== Sys2Proof/Certificates/Slice0/Obligations.lean ====
section
/-! DEFINITION. The statements for the provers, made from the spec's numbered rules. `exec i s` is one
instruction after its fetch; `step s` is one whole cycle. A statement that rests on a decision the spec marks as
its own (D1 to D26) says which. -/

open Sys2Proof Sys2Proof.Machine

/-! ### Encoding and decoding -/

/-- Words written out from R53's formats and 95_test_vectors.md decode to the instructions they stand for. -/
def Obligations.DecodesWordsOfTheSpec : Prop :=
  decodeBytes [0b10000010#8, 0b00000011#8, 0b11111111#8] = .ok (.ldi 3 255) ∧
  decodeBytes [0b01000111#8, 0b00000010#8, 0b00000000#8] = .ok (.prn 2) ∧
  decodeBytes [0b00000001#8, 0b00000000#8, 0b00000000#8] = .ok .hlt ∧
  decodeBytes [0b10100010#8, 0b00000001#8, 0b00000000#8] = .ok (.mul 1 0) ∧
  decodeBytes [0b10100000#8, 0b00001001#8, 0b00001000#8] = .ok (.add 9 8) ∧
  decodeBytes [0b01000101#8, 0b00000111#8, 0b00000000#8] = .ok (.push 7) ∧
  decodeBytes [0b01000110#8, 0b00000001#8, 0b00000000#8] = .ok (.pop 1) ∧
  decodeBytes [0b01010000#8, 0b00000001#8, 0b00000000#8] = .ok (.call 1) ∧
  decodeBytes [0b00010001#8, 0b00000000#8, 0b00000000#8] = .ok .ret

/-- Decode and encode agree, for every instruction with every operand byte, whatever bytes follow it; and
whatever decodes is its own encoding, cut at its length (R50, R53, R56). -/
def Obligations.DecodeInvertsEncode : Prop :=
  (∀ (i : Instr) (tail : List Byte), decodeBytes (encode i ++ tail) = .ok i) ∧
  (∀ (op a b : Byte) (i : Instr), decode op a b = .ok i → encode i = [op, a, b].take i.length)

/-- R57: the whole opcode byte is compared with the nine values; each selects its instruction, and no other
byte selects one. -/
def Obligations.DecoderComparesWholeOpcode : Prop :=
  ∀ op a b : Byte,
    (op = 0x82#8 → decode op a b = .ok (.ldi a b)) ∧ (op = 0x47#8 → decode op a b = .ok (.prn a)) ∧
    (op = 0x01#8 → decode op a b = .ok .hlt) ∧ (op = 0xA2#8 → decode op a b = .ok (.mul a b)) ∧
    (op = 0xA0#8 → decode op a b = .ok (.add a b)) ∧ (op = 0x45#8 → decode op a b = .ok (.push a)) ∧
    (op = 0x46#8 → decode op a b = .ok (.pop a)) ∧ (op = 0x50#8 → decode op a b = .ok (.call a)) ∧
    (op = 0x11#8 → decode op a b = .ok .ret) ∧
    (op ∉ opcodes → decode op a b = .error (.unknownOpcode op))

/-- R51 and R52: the length is the opcode's two high bits plus 1, it is the number of bytes of the encoding, and
no opcode with both high bits set is an instruction. -/
def Obligations.LengthIsTwoHighBitsPlusOne : Prop :=
  (∀ i : Instr, i.length = i.opcode.toNat / 64 + 1 ∧ (encode i).length = i.length) ∧
  (∀ op a b : Byte, op.toNat ≥ 192 → decode op a b = .error (.unknownOpcode op))

/-- R56: a candidate byte that is not part of the instruction does not change what is decoded. -/
def Obligations.UnusedCandidateBytesIgnored : Prop :=
  ∀ (op a b : Byte) (i : Instr), decode op a b = .ok i →
    (i.length ≤ 2 → ∀ b', decode op a b' = .ok i) ∧ (i.length = 1 → ∀ a' b', decode op a' b' = .ok i)

/-- R60: whether a byte is an opcode, of which instruction and of what length, depends on that byte alone, and an
unknown opcode gives no instruction and so no length; and what a cycle decodes depends on the bytes at the pc alone,
on no prefix before them and no mode. -/
def Obligations.DecodedFromOpcodeAlone : Prop :=
  (∀ (op a b a' b' : Byte) (i : Instr), decode op a b = .ok i →
    ∃ i', decode op a' b' = .ok i' ∧ i'.opcode = op ∧ i'.length = i.length) ∧
  (∀ op a b a' b' : Byte, decode op a b = .error (.unknownOpcode op) →
    decode op a' b' = .error (.unknownOpcode op)) ∧
  (∀ s t : State, s.pc.toNat ≤ 253 → t.pc.toNat ≤ 253 →
    (∀ k ≤ 2, t.mem.read (t.pc.toNat + k) = s.mem.read (s.pc.toNat + k)) → fetchInstr t = fetchInstr s)

/-! ### The cycle -/

/-- R66: the three bytes at pc, pc+1, pc+2, or, at pc 254 and 255, AddressOutOfRange(256) whatever the opcode
(the spec's decision D6, log entry 10). -/
def Obligations.FetchReadsThreeBytes : Prop :=
  ∀ s : State,
    (s.pc.toNat ≤ 253 → fetch s =
      .ok (s.mem.read s.pc.toNat, s.mem.read (s.pc.toNat + 1), s.mem.read (s.pc.toNat + 2))) ∧
    (254 ≤ s.pc.toNat → fetch s = .error ⟨.addressOutOfRange, 256⟩ ∧
      (s.status = .running → step s = .next (s.takeFault ⟨.addressOutOfRange, 256⟩)))

/-- R67, R74: where the bytes at the pc decode to an instruction, one step is exactly that instruction on that
state, well formed or not; the step adds nothing around it. -/
def Obligations.StepRunsDecodedInstruction : Prop :=
  ∀ (s : State) (i : Instr), s.status = .running → s.pc.toNat ≤ 253 →
    decode (s.mem.read s.pc.toNat) (s.mem.read (s.pc.toNat + 1)) (s.mem.read (s.pc.toNat + 2)) = .ok i →
    step s = exec i s

/-- R65, R101: in HALTED and FAULTED no state changes. That "no step" is answered as the unchanged state is the
model's reading (log entry 4). -/
def Obligations.StoppedMachineChangesNothing : Prop :=
  ∀ s : State, s.status ≠ .running → step s = .next s

/-- No instruction and no step is ever stopped or refused by the model: every fault the spec names is a step to a
FAULTED state (R68; log entry 9). What is said of exec at pc 254 and 255, no step shows (log entry 6). -/
def Obligations.EveryStepAnswersNext : Prop :=
  (∀ (i : Instr) (s : State), ∃ t, exec i s = .next t) ∧ (∀ s : State, ∃ t, step s = .next t)

/-- R64's table: HALTED only from RUNNING by HLT, fetched at pc ≤ 253; FAULTED only from RUNNING by the first raise
of the cycle; every other completed instruction leaves RUNNING; HALTED and FAULTED stay. FAULTED is the spec's
decision D3. The bound 253 of HLT is D6 (R66, R79; log entry 10). When firstRaise names a raise (R69) is D6 (log
entry 10), D7 and D8 (log entry 11), D9 for the byte POP R7 pops (log entry 12), D10 and D11 (log entry 13). -/
def Obligations.StatusChangesOnlyAsTabled : Prop :=
  ∀ s t : State, step s = .next t →
    (s.status ≠ .running → t.status = s.status) ∧
    (s.status = .running →
      (t.status = .halted ↔ s.pc.toNat ≤ 253 ∧ s.mem.read s.pc.toNat = 0x01#8) ∧
      (t.status = .faulted ↔ ∃ r, firstRaise s = some r))

/-- A byte placed at the pc runs: for every instruction, encoded at the pc of a RUNNING machine at pc ≤ 253 with
any byte after it, the next step is that instruction (R50, R66, R67). -/
def Obligations.PlacedInstructionRunsNext : Prop :=
  ∀ (i : Instr) (tail : List Byte) (s : State), s.status = .running → s.pc.toNat ≤ 253 → s.mem.wf = true →
    step (placeAtPc s (encode i ++ tail)) = exec i (placeAtPc s (encode i ++ tail))

/-- R46, R47: a PUSH that writes the byte after itself runs from its latched bytes, and the next fetch reads the
byte written (the spec's decision D21). -/
def Obligations.StoreIsSeenByNextFetch : Prop :=
  ∀ (a : Byte) (k : RegIdx) (s : State), s.status = .running → s.mem.wf = true → a.toNat = k.val →
    s.pc.toNat ≤ 251 → s.sp.toNat = s.pc.toNat + 3 → fetchInstr s = .ok (.push a) →
    ∃ t, step s = .next t ∧ fetch t =
      .ok (if k = 7 then s.sp - 1#8 else s.reg k, s.mem.read (s.pc.toNat + 3), s.mem.read (s.pc.toNat + 4))

/-! ### Faults -/

/-- R68, R100: a faulting cycle changes only status and the fault record, which holds the pc and the byte fetched
there. For a whole step, and for any instruction alone (the spec's decision D4, log entry 3). What is said of exec
at pc 254 and 255, no step shows (log entry 6). -/
def Obligations.FaultsArePrecise : Prop :=
  (∀ s t : State, s.status = .running → step s = .next t → t.status = .faulted →
    t.x = s.x ∧ t.pc = s.pc ∧ t.mem = s.mem ∧ t.out = s.out ∧
      ∃ r, t.fault = some r ∧ r.pc = s.pc ∧ r.opcode = s.mem.read s.pc.toNat) ∧
  (∀ (i : Instr) (s t : State), s.status ≠ .faulted → exec i s = .next t → t.status = .faulted →
    ∃ r, t = s.takeFault r)

/-- R69, R95: of several faults that apply to a cycle, the first in the order of firstRaise is the one taken, with
its cause and value; and where none applies the cycle does not fault. The order and the checks are the spec's
decisions D6 (log entry 10), D7 and D8 (log entry 11), D9 (POP R7 checks the popped byte: log entry 12, unsafe),
D10 and D11 (log entry 13). takeFault acts on the state before the cycle, so the writes before a late raise (LDI at
253, POP at SP 255) are discarded: D3 and D4 (R68; log entry 3, unsafe). -/
def Obligations.FirstFaultInOrderIsTaken : Prop :=
  ∀ s : State, s.status = .running →
    (∀ r, firstRaise s = some r → step s = .next (s.takeFault r)) ∧
    (firstRaise s = none → ∃ t, step s = .next t ∧ t.status ≠ .faulted)

/-- R94: UnknownOpcode is raised exactly when the byte at the pc matches no instruction, any of the 247 other
bytes, and the operand fetch succeeded; its value is the opcode byte; a zero byte is such an opcode. -/
def Obligations.UnknownOpcodeIsRaised : Prop :=
  (∀ s : State, s.status = .running → s.pc.toNat ≤ 253 → s.mem.read s.pc.toNat ∉ opcodes →
    step s = .next (s.takeFault ⟨.unknownOpcode, (s.mem.read s.pc.toNat).toNat⟩)) ∧
  (∀ (s t : State) (r : FaultRecord), s.status = .running → step s = .next t → t.status = .faulted →
    t.fault = some r → r.cause = .unknownOpcode →
    s.pc.toNat ≤ 253 ∧ s.mem.read s.pc.toNat ∉ opcodes ∧ r.value = (s.mem.read s.pc.toNat).toNat) ∧
  ((List.range 256).filter (fun n => BitVec.ofNat 8 n ∉ opcodes)).length = 247 ∧
  (∀ s : State, s.status = .running → s.pc.toNat ≤ 253 → s.mem.read s.pc.toNat = 0#8 →
    step s = .next (s.takeFault ⟨.unknownOpcode, 0⟩))

/-- R70, R54: every operand byte used as a register index is checked, before anything else the instruction does,
operand A before operand B; 8..255 raises AddressOutOfRange with the index (the spec's decisions D7, D8, log entry
11). LDI's operand B and HLT and RET have no such check. What is said of exec at pc 254 and 255, no step shows (log
entry 6). -/
def Obligations.RegisterIndexOutOfRangeFaults : Prop :=
  ∀ (a b : Byte) (s : State),
    (a.toNat > 7 → ∀ i ∈ ([.ldi a b, .prn a, .mul a b, .add a b, .push a, .pop a, .call a] : List Instr),
      exec i s = .next (s.takeFault ⟨.addressOutOfRange, a.toNat⟩)) ∧
    (a.toNat ≤ 7 → b.toNat > 7 → ∀ i ∈ ([.mul a b, .add a b] : List Instr),
      exec i s = .next (s.takeFault ⟨.addressOutOfRange, b.toNat⟩))

/-- R85: the SP decrement of PUSH and CALL is checked: from 0 it raises AddressOutOfRange(-1), and from any value
1..255 it succeeds, whatever memory holds. What the first clause says at pc 254 and 255, where a cycle's fetch
faults first (R66), no step shows (log entry 6). -/
def Obligations.StackDecrementChecked : Prop :=
  ∀ (a : Byte) (s : State), a.toNat ≤ 7 →
    (s.sp = 0#8 → exec (.push a) s = .next (s.takeFault ⟨.addressOutOfRange, -1⟩) ∧
      exec (.call a) s = .next (s.takeFault ⟨.addressOutOfRange, -1⟩)) ∧
    (s.sp ≠ 0#8 → s.pc.toNat ≤ 253 →
      (∃ t, exec (.push a) s = .next t ∧ t.sp.toNat + 1 = s.sp.toNat ∧ KeepsControl s t) ∧
      (∃ t, exec (.call a) s = .next t ∧ t.sp.toNat + 1 = s.sp.toNat ∧ KeepsControl s t))

/-- R86, R88, R90: the SP increment of POP and RET is checked: past 255 it raises AddressOutOfRange(256), otherwise
it succeeds, whatever SP_INIT is (the spec's decision D10, log entry 13); POP R7 increments the byte popped (D9,
log entry 12). POP writes its register before the increment raises: that the fault is taken on the state before the
cycle, that write discarded, is D4 (R68; log entry 3, unsafe). -/
def Obligations.StackIncrementChecked : Prop :=
  ∀ (a : Byte) (s : State), a.toNat ≤ 7 → s.pc.toNat ≤ 253 →
    (a ≠ 7#8 → s.sp = 255#8 → exec (.pop a) s = .next (s.takeFault ⟨.addressOutOfRange, 256⟩)) ∧
    (a ≠ 7#8 → s.sp ≠ 255#8 →
      ∃ t, exec (.pop a) s = .next t ∧ t.sp.toNat = s.sp.toNat + 1 ∧ KeepsControl s t) ∧
    (a = 7#8 → s.mem.read s.sp.toNat = 255#8 →
      exec (.pop a) s = .next (s.takeFault ⟨.addressOutOfRange, 256⟩)) ∧
    (a = 7#8 → s.mem.read s.sp.toNat ≠ 255#8 →
      ∃ t, exec (.pop a) s = .next t ∧ t.sp.toNat = (s.mem.read s.sp.toNat).toNat + 1 ∧ KeepsControl s t) ∧
    (s.sp = 255#8 → exec .ret s = .next (s.takeFault ⟨.addressOutOfRange, 256⟩)) ∧
    (s.sp ≠ 255#8 → ∃ t, exec .ret s = .next t ∧ t.sp.toNat = s.sp.toNat + 1 ∧ KeepsControl s t)

/-- R72: a 3-byte instruction at 253 raises AddressOutOfRange(256) by its advance (the spec's decision D11, log
entry 13). Each wrote x[a] before: that nothing but status and fault changes, that write discarded, is D4 (R68; log
entry 3, unsafe). -/
def Obligations.AdvancePastEndFaults : Prop :=
  ∀ (a b : Byte) (s : State), a.toNat ≤ 7 → s.pc = 253#8 →
    exec (.ldi a b) s = .next (s.takeFault ⟨.addressOutOfRange, 256⟩) ∧
    (b.toNat ≤ 7 → exec (.mul a b) s = .next (s.takeFault ⟨.addressOutOfRange, 256⟩) ∧
      exec (.add a b) s = .next (s.takeFault ⟨.addressOutOfRange, 256⟩))

/-! ### Memory -/

/-- R33, R34: a read returns the byte last written to that cell, or its reset value; a write changes no other cell.
That it keeps the canonical form is the model's own clause (log entry 18). -/
def Obligations.MemoryReadsLastWrite : Prop :=
  (∀ (s t : State) (a b : Int) (v : Byte), s.mem.wf = true → memWrite a v s = .ok t →
    t.mem.wf = true ∧ memRead b t = (if b = a then .ok v else memRead b s)) ∧
  (∀ (spInit : Byte) (b : Nat), b ≤ 255 → memRead b (State.create spInit) = .ok 0#8)

/-- R36: an access whose computed address lies outside 0..255 does not happen and raises AddressOutOfRange with
that address; one inside happens and changes nothing but that memory. -/
def Obligations.MemoryAccessChecked : Prop :=
  ∀ (addr : Int) (v : Byte) (s : State),
    (addr < 0 ∨ 255 < addr → memRead addr s = .error ⟨.addressOutOfRange, addr⟩ ∧
      memWrite addr v s = .error ⟨.addressOutOfRange, addr⟩) ∧
    (0 ≤ addr → addr ≤ 255 → memRead addr s = .ok (s.mem.read addr.toNat) ∧
      memWrite addr v s = .ok { s with mem := s.mem.write addr.toNat v })

/-- R32, R39: in a step only PUSH and CALL write memory, one byte, at SP - 1. -/
def Obligations.OnlyPushAndCallWriteMemory : Prop :=
  ∀ s t : State, s.mem.wf = true → step s = .next t →
    ∀ b, t.mem.read b ≠ s.mem.read b →
      b + 1 = s.sp.toNat ∧ ∃ a, fetchInstr s = .ok (.push a) ∨ fetchInstr s = .ok (.call a)

/-! ### Reset and load -/

/-- R111: every piece of state after machine creation, for every SP_INIT; State.reset takes 0xF4 (the spec's
decisions D1 and D2; PRESUMED and DESIGN CHOICE, log entries 1 and 2). -/
def Obligations.ResetPutsEveryState : Prop :=
  (∀ (spInit : Byte),
    (∀ i : RegIdx, (State.create spInit).reg i = if i = 7 then spInit else 0#8) ∧
    (State.create spInit).pc = 0#8 ∧ (∀ b, (State.create spInit).mem.read b = 0#8) ∧
    (State.create spInit).status = .running ∧ (State.create spInit).fault = none ∧
    (State.create spInit).out = []) ∧
  State.reset = State.create 0xF4#8

/-- R34, R97, R114: after reset every cell is 0; the loader writes the program at 0..n-1 in order and cells n..255
stay 0; a program of 0 to 256 bytes loads (the spec's decision D25); a longer one is LoadOverflow with its byte
count and leaves the machine as created (D16; log entry 14 for both). That the loaded memory has the canonical form
is the model's own clause (log entry 18). -/
def Obligations.LoadWritesProgramFromZero : Prop :=
  ∀ (spInit : Byte) (bytes : List Byte),
    (∀ b, (State.create spInit).mem.read b = 0#8) ∧
    (bytes.length ≤ 256 → ∃ s, boot spInit bytes = .loaded s ∧
      (∀ (k : Nat) (h : k < bytes.length), s.mem.read k = bytes[k]) ∧
      (∀ k, bytes.length ≤ k → s.mem.read k = 0#8) ∧
      s = { State.create spInit with mem := s.mem } ∧ s.mem.wf = true) ∧
    (256 < bytes.length → boot spInit bytes = .overflow bytes.length (State.create spInit))

/-! ### The instructions: each completes, with this result and this frame -/

/-- R77: LDI, into R7 too (the spec's decision D9, log entry 12). -/
def Obligations.LdiLoadsImmediate : Prop :=
  ∀ (a imm : Byte) (i : RegIdx) (s : State), a.toNat = i.val → s.pc.toNat ≤ 252 →
    ∃ t, exec (.ldi a imm) s = .next t ∧ t.reg i = imm ∧ KeepsRegistersExcept i s t ∧
      t.pc.toNat = s.pc.toNat + 3 ∧ KeepsMemory s t ∧ KeepsControl s t ∧ t.out = s.out

/-- R78: PRN. -/
def Obligations.PrnAppendsRegister : Prop :=
  ∀ (a : Byte) (i : RegIdx) (s : State), a.toNat = i.val → s.pc.toNat ≤ 253 →
    ∃ t, exec (.prn a) s = .next t ∧ t.out = s.out ++ [s.reg i] ∧ KeepsRegisters s t ∧
      t.pc.toNat = s.pc.toNat + 2 ∧ KeepsMemory s t ∧ KeepsControl s t

/-- R79: HLT. -/
def Obligations.HltHaltsAndAdvances : Prop :=
  ∀ s : State, s.pc.toNat ≤ 253 →
    ∃ t, exec .hlt s = .next t ∧ t.status = .halted ∧ t.pc.toNat = s.pc.toNat + 1 ∧
      KeepsRegisters s t ∧ KeepsMemory s t ∧ t.fault = s.fault ∧ t.out = s.out

/-- R83: MUL, into R7 too (the spec's decision D9, log entry 12). -/
def Obligations.MulMultipliesRegisters : Prop :=
  ∀ (a b : Byte) (i j : RegIdx) (s : State), a.toNat = i.val → b.toNat = j.val → s.pc.toNat ≤ 252 →
    ∃ t, exec (.mul a b) s = .next t ∧ (t.reg i).toNat = ((s.reg i).toNat * (s.reg j).toNat) % 256 ∧
      KeepsRegistersExcept i s t ∧ t.pc.toNat = s.pc.toNat + 3 ∧ KeepsMemory s t ∧ KeepsControl s t ∧
      t.out = s.out

/-- R82, R80: ADD, on R7 too, with the ALU's wraparound (the spec's decision D9, log entry 12). -/
def Obligations.AddAddsRegisters : Prop :=
  ∀ (a b : Byte) (i j : RegIdx) (s : State), a.toNat = i.val → b.toNat = j.val → s.pc.toNat ≤ 252 →
    ∃ t, exec (.add a b) s = .next t ∧ (t.reg i).toNat = ((s.reg i).toNat + (s.reg j).toNat) % 256 ∧
      KeepsRegistersExcept i s t ∧ t.pc.toNat = s.pc.toNat + 3 ∧ KeepsMemory s t ∧ KeepsControl s t ∧
      t.out = s.out

/-- R87: PUSH; the byte stored at SP - 1 is x[a] read after the decrement, so the new SP for PUSH R7 (the spec's
decision D9, log entry 12). -/
def Obligations.PushStoresBelowStackPointer : Prop :=
  ∀ (a : Byte) (i : RegIdx) (s : State), a.toNat = i.val → s.sp ≠ 0#8 → s.pc.toNat ≤ 253 → s.mem.wf = true →
    ∃ t, exec (.push a) s = .next t ∧ t.sp = s.sp - 1#8 ∧ KeepsRegistersExcept 7 s t ∧
      t.mem.read (s.sp - 1#8).toNat = (if i = 7 then s.sp - 1#8 else s.reg i) ∧
      KeepsMemoryExcept (s.sp - 1#8).toNat s t ∧ t.pc.toNat = s.pc.toNat + 2 ∧ KeepsControl s t ∧
      t.out = s.out

/-- R88: POP into a register other than R7, and POP R7, whose popped byte becomes SP and is then incremented (the
spec's decision D9, log entry 12). -/
def Obligations.PopLoadsFromStackPointer : Prop :=
  ∀ (a : Byte) (i : RegIdx) (s : State), a.toNat = i.val → s.pc.toNat ≤ 253 →
    (i ≠ 7 → s.sp ≠ 255#8 →
      ∃ t, exec (.pop a) s = .next t ∧ t.reg i = s.mem.read s.sp.toNat ∧ t.sp = s.sp + 1#8 ∧
        (∀ j, j ≠ i → j ≠ 7 → t.reg j = s.reg j) ∧ t.pc.toNat = s.pc.toNat + 2 ∧ KeepsMemory s t ∧
        KeepsControl s t ∧ t.out = s.out) ∧
    (i = 7 → s.mem.read s.sp.toNat ≠ 255#8 →
      ∃ t, exec (.pop a) s = .next t ∧ t.sp = s.mem.read s.sp.toNat + 1#8 ∧ KeepsRegistersExcept 7 s t ∧
        t.pc.toNat = s.pc.toNat + 2 ∧ KeepsMemory s t ∧ KeepsControl s t ∧ t.out = s.out)

/-- R89, R73: CALL; the return address pc + 2 is stored at SP - 1, and the target is x[a] read after the
decrement, so the new SP for CALL R7 (the spec's decision D9, log entry 12). -/
def Obligations.CallPushesReturnAddressAndJumps : Prop :=
  ∀ (a : Byte) (i : RegIdx) (s : State), a.toNat = i.val → s.sp ≠ 0#8 → s.pc.toNat ≤ 253 → s.mem.wf = true →
    ∃ t, exec (.call a) s = .next t ∧ t.sp = s.sp - 1#8 ∧ KeepsRegistersExcept 7 s t ∧
      (t.mem.read (s.sp - 1#8).toNat).toNat = s.pc.toNat + 2 ∧ KeepsMemoryExcept (s.sp - 1#8).toNat s t ∧
      t.pc = (if i = 7 then s.sp - 1#8 else s.reg i) ∧ KeepsControl s t ∧ t.out = s.out

/-- R90, R73: RET. -/
def Obligations.RetPopsProgramCounter : Prop :=
  ∀ s : State, s.sp ≠ 255#8 → s.pc.toNat ≤ 253 →
    ∃ t, exec .ret s = .next t ∧ t.pc = s.mem.read s.sp.toNat ∧ t.sp = s.sp + 1#8 ∧
      KeepsRegistersExcept 7 s t ∧ KeepsMemory s t ∧ KeepsControl s t ∧ t.out = s.out

/-! ### Relations between instructions -/

/-- R81, R82, R83: both arithmetic instructions give the low 8 bits of the exact unsigned result and produce no
carry, overflow or other indication; and they are commutative in their values, the sentence R81 marks as derived
from itself. That a may name R7, whose SP is then written unchecked, is the spec's decision D9 (R71, R82; log entry
12). -/
def Obligations.ArithmeticWrapsAndCommutes : Prop :=
  ∀ (a b : Byte) (i j : RegIdx) (s : State), a.toNat = i.val → b.toNat = j.val → s.pc.toNat ≤ 252 →
    ∃ t t' u u', exec (.add a b) s = .next t ∧ exec (.add b a) s = .next t' ∧
      exec (.mul a b) s = .next u ∧ exec (.mul b a) s = .next u' ∧
      (t.reg i).toNat = ((s.reg i).toNat + (s.reg j).toNat) % 256 ∧ t'.reg j = t.reg i ∧
      (u.reg i).toNat = ((s.reg i).toNat * (s.reg j).toNat) % 256 ∧ u'.reg j = u.reg i ∧
      KeepsRegistersExcept i s t ∧ KeepsRegistersExcept i s u ∧
      KeepsControl s t ∧ KeepsControl s u ∧ t.out = s.out ∧ u.out = s.out

/-- R80, R96: the ALU adds into register i and leaves every other register; any operation but ADD raises
UnsupportedAluOperation with its code; and no step records that cause (the spec's decision D12; the operation codes
are the model's, DESIGN CHOICE, log entry 7). -/
def Obligations.AluSupportsOnlyAdd : Prop :=
  (∀ (i j : RegIdx) (s : State), ∃ t, alu .add i j s = .ok t ∧
    (t.reg i).toNat = ((s.reg i).toNat + (s.reg j).toNat) % 256 ∧ KeepsRegistersExcept i s t) ∧
  (∀ (code : Int) (i j : RegIdx) (s : State),
    alu (.other code) i j s = .error ⟨.unsupportedAluOperation, code⟩) ∧
  (∀ (s t : State) (r : FaultRecord), s.status = .running → step s = .next t → t.status = .faulted →
    t.fault = some r → r.cause ≠ .unsupportedAluOperation)

/-- R88, E4: PUSH then POP of the same register gives back every register; for R7 by the spec's decision D9 (log
entry 12). -/
def Obligations.PushThenPopRestoresRegisters : Prop :=
  ∀ (a : Byte) (s : State), a.toNat ≤ 7 → s.sp ≠ 0#8 → s.pc.toNat ≤ 251 → s.mem.wf = true →
    ∃ t u, exec (.push a) s = .next t ∧ exec (.pop a) t = .next u ∧ u.x = s.x ∧
      u.pc.toNat = s.pc.toNat + 4 ∧ KeepsMemoryExcept (s.sp - 1#8).toNat s u ∧ KeepsControl s u ∧
      u.out = s.out

/-- R90, E5: a RET in any later state that has SP and the return-address byte as CALL left them resumes at the
CALL's address + 2, with SP as before the CALL. A later state at pc 254 or 255 is exec's alone (log entry 6). -/
def Obligations.RetResumesAfterCall : Prop :=
  ∀ (a : Byte) (s t u : State), a.toNat ≤ 7 → s.sp ≠ 0#8 → s.pc.toNat ≤ 253 → s.mem.wf = true →
    exec (.call a) s = .next t → u.sp = t.sp → u.mem.read t.sp.toNat = t.mem.read t.sp.toNat →
    ∃ v, exec .ret u = .next v ∧ v.pc.toNat = s.pc.toNat + 2 ∧ v.sp = s.sp

/-- R90: PUSH Ra then RET is an indirect jump to the byte pushed, x[a], or the decremented SP for R7 (the spec's
decision D9, log entry 12), and leaves every register unchanged. From pc 252 and 253 the RET stands at 254 or 255,
where a cycle's fetch faults (R66): there it is exec's answer alone, which no step gives (DEDUCED, log entry 6). -/
def Obligations.PushThenRetJumps : Prop :=
  ∀ (a : Byte) (i : RegIdx) (s : State), a.toNat = i.val → s.sp ≠ 0#8 → s.pc.toNat ≤ 253 → s.mem.wf = true →
    ∃ t u, exec (.push a) s = .next t ∧ exec .ret t = .next u ∧
      u.pc = (if i = 7 then s.sp - 1#8 else s.reg i) ∧ u.x = s.x

/-! ### Rules of the whole machine -/

/-- R15, the "writes" column: no instruction changes a register outside it, faulting or not; where it faults, by
the spec's decision D4 (log entry 3). What is said of exec at pc 254 and 255, no step shows (log entry 6). -/
def Obligations.OnlyTabledRegistersAreWritten : Prop :=
  ∀ (i : Instr) (s t : State), exec i s = .next t → ∀ j, j ∉ i.writes → t.reg j = s.reg j

/-- R15, the "reads" column: two states that differ only in registers the instruction does not read give the same
pc, memory, status, fault and output, and, where the instruction does not fault, the same values in the registers
it writes. Where it faults, the pc and memory are the spec's decision D4 (log entry 3). What is said of exec at pc
254 and 255, no step shows (log entry 6). -/
def Obligations.OnlyTabledRegistersAreRead : Prop :=
  ∀ (i : Instr) (s t t' : State) (x' : Vector Byte 8),
    (∀ j, j ∈ i.reads → s.reg j = ({ s with x := x' } : State).reg j) →
    exec i s = .next t → exec i { s with x := x' } = .next t' →
    t.pc = t'.pc ∧ t.mem = t'.mem ∧ t.status = t'.status ∧ t.fault = t'.fault ∧ t.out = t'.out ∧
      (t.status ≠ .faulted → ∀ j, j ∈ i.writes → t.reg j = t'.reg j)

/-- R21: the pc changes only by executing an instruction: it advances by the instruction's length, or CALL or RET
sets it (CALL R7 to the new SP: the spec's decision D9, log entry 12); it is unchanged outside RUNNING and, by the
spec's decision D4 (log entry 3), by a fault. -/
def Obligations.PcChangesOnlyByExecution : Prop :=
  ∀ s t : State, step s = .next t →
    (s.status ≠ .running → t.pc = s.pc) ∧ (t.status = .faulted → t.pc = s.pc) ∧
    (s.status = .running → t.status ≠ .faulted →
      ∃ i, fetchInstr s = .ok i ∧
        (i.setsPc = false → t.pc.toNat = s.pc.toNat + i.length) ∧
        (∀ (a : Byte) (k : RegIdx), i = .call a → a.toNat = k.val →
          t.pc = if k = 7 then s.sp - 1#8 else s.reg k) ∧
        (i = .ret → t.pc = s.mem.read s.sp.toNat))

/-- R26: the output stream is empty after reset; a step appends to it exactly when it is a PRN that does not
fault, the printed register's byte; and no instruction reads it: another stream in its place changes nothing
else. -/
def Obligations.OutputIsWrittenByPrnAndNeverRead : Prop :=
  (∀ spInit, (State.create spInit).out = []) ∧
  (∀ s t : State, step s = .next t →
    (t.out = s.out ∨ ∃ (a : Byte) (k : RegIdx), fetchInstr s = .ok (.prn a) ∧ a.toNat = k.val ∧
      t.out = s.out ++ [s.reg k])) ∧
  (∀ (s t : State) (a : Byte) (k : RegIdx), s.status = .running → fetchInstr s = .ok (.prn a) →
    a.toNat = k.val → step s = .next t → t.out = s.out ++ [s.reg k]) ∧
  (∀ (s t : State) (o : List Byte), step s = .next t →
    ∃ t', step { s with out := o } = .next t' ∧ t'.x = t.x ∧ t'.pc = t.pc ∧ t'.mem = t.mem ∧
      t'.status = t.status ∧ t'.fault = t.fault)

/-! ### Invariants and runs -/

/-- The invariant Inv holds right after machine creation, for every SP_INIT, and so at State.reset. -/
def Obligations.InvariantHoldsAtReset : Prop :=
  (∀ spInit, Inv (State.create spInit)) ∧ Inv State.reset

/-- The invariant holds after every load that succeeds (R113, R114; the spec's decisions D16 and D25, log entry 14;
the canonical form is log entry 18). -/
def Obligations.InvariantHoldsAfterLoad : Prop :=
  ∀ (spInit : Byte) (bytes : List Byte) (s : State), boot spInit bytes = .loaded s → Inv s

/-- From EVERY state that meets it, reached by a run or not, a step keeps the invariant: the memory stays canonical
inside 0..255 (log entry 18), a fault record stands exactly in FAULTED and is one this hardware can write, and
HALTED stands one past an HLT (R25, R31, R64, R79, R95, R96, R97). The bound 253 of that HLT is the spec's decision
D6 (R66; log entry 10). The FAULTED clause reads the pc and memory after a fault, kept from before the cycle by the
spec's decision D4 (R68; log entry 3, unsafe). -/
def Obligations.StepKeepsInvariant : Prop :=
  ∀ s t : State, Inv s → step s = .next t → Inv t

/-- Every state of every run of every loaded program meets the invariant, and every run goes on for any number of
steps of the model (R75, R113). R75 ends a run outside RUNNING: that the model's run goes on there, in the same
state, is its reading of R65 (DEDUCED, log entry 4). That every program of 0 to 256 bytes starts is the spec's
decisions D16 and D25 (R114; log entry 14). Inv itself rests on D4 and D6 (log entries 3, 10, 18), as
StepKeepsInvariant says. -/
def Obligations.EveryRunMeetsInvariant : Prop :=
  (∀ (spInit : Byte) (program : List Byte) (k : Nat) (s : State), RunsTo spInit program k s → Inv s) ∧
  (∀ (spInit : Byte) (program : List Byte), program.length ≤ 256 →
    ∀ k, ∃ s, RunsTo spInit program k s)

/-- R64, R75, R101: once a run has left RUNNING it is over: every later state is the same, so a run that ends
normally never faults and its end is one state. That the model answers a step there with the same state is its
reading of R65 (DEDUCED, log entry 4). -/
def Obligations.EndOfRunIsFinal : Prop :=
  (∀ (k j : Nat) (s₀ s : State), core.run k s₀ = .next s → s.status ≠ .running →
    core.run (k + j) s₀ = .next s) ∧
  (∀ (spInit : Byte) (program : List Byte), EndsNormally spInit program → NeverFaults spInit program)

/-! ### What the host sees -/

/-- R106: one trace record for every cycle whose fetch succeeds, of the fetched bytes and the registers before the
instruction executes; none for a cycle whose fetch faults (the spec's decision D17, log entry 15). -/
def Obligations.TracePresentsFetchedCycle : Prop :=
  ∀ s : State,
    (s.status = .running → s.pc.toNat ≤ 253 → s.trace =
      some ⟨s.pc, s.mem.read s.pc.toNat, s.mem.read (s.pc.toNat + 1), s.mem.read (s.pc.toNat + 2), s.x⟩) ∧
    (254 ≤ s.pc.toNat → s.trace = none) ∧ (s.status ≠ .running → s.trace = none)

/-- R93, R110: in every state that meets the invariant the exit code is 0 exactly for HALTED, and 1 or 2 for
FAULTED; a failed load has 4 (the spec's decisions D5, D18, log entry 16). -/
def Obligations.ExitCodesTellTheEnd : Prop :=
  (∀ s : State, Inv s → (s.exitCode = some 0 ↔ s.status = .halted) ∧
    (s.status = .faulted → s.exitCode = some 1 ∨ s.exitCode = some 2) ∧
    (s.status = .running → s.exitCode = none)) ∧
  (∀ (spInit : Byte) (bytes : List Byte), 256 < bytes.length → (boot spInit bytes).exitCode = some 4)
end

