-- ==== Sys2Proof/Laws/Memory.lean ====
section
/-! SUPPORT. The memory: a read after a write, and that every memory operation keeps the canonical form. -/

namespace Sys2Proof.Machine

/-- A memory in canonical form from `lo` lists nothing below `lo`. -/
theorem Memory.read_below {m : Memory} {lo a : Nat} (h : m.wfFrom lo = true) (ha : a < lo) :
    m.read a = Memory.unlisted := by
  induction m generalizing lo with
  | nil => rfl
  | cons c m ih =>
    obtain ⟨k, v⟩ := c
    simp only [Memory.wfFrom, Bool.and_eq_true, decide_eq_true_eq] at h
    have hk : k ≠ a := by omega
    simpa [Memory.read, hk] using ih h.2 (by omega)

theorem Memory.wfFrom_mono {m : Memory} {lo lo' : Nat} (h : m.wfFrom lo = true) (hl : lo' ≤ lo) :
    m.wfFrom lo' = true := by
  cases m with
  | nil => rfl
  | cons c m =>
    obtain ⟨k, v⟩ := c
    simp only [Memory.wfFrom, Bool.and_eq_true, decide_eq_true_eq] at h ⊢
    exact ⟨⟨⟨by omega, h.1.1.2⟩, h.1.2⟩, h.2⟩

/-- Read after write, from any lower bound of the form. -/
theorem Memory.read_write_from {m : Memory} {lo : Nat} (a b : Nat) (v : Byte) (h : m.wfFrom lo = true) :
    (m.write a v).read b = if b = a then v else m.read b := by
  induction m generalizing lo with
  | nil => by_cases hv : v = Memory.unlisted <;> simp [Memory.write, Memory.read, hv, eq_comm]
  | cons c m ih =>
    obtain ⟨k, w⟩ := c
    simp only [Memory.wfFrom, Bool.and_eq_true, decide_eq_true_eq] at h
    obtain ⟨⟨⟨_, _⟩, _⟩, hm⟩ := h
    have low : ∀ j, j ≤ k → Memory.read m j = Memory.unlisted := fun j hj => Memory.read_below hm (by omega)
    simp only [Memory.write]
    split
    · by_cases hv : v = Memory.unlisted
      · simp only [hv, if_true, Memory.read]
        split <;> simp_all <;> grind
      · simp only [hv, if_false, Memory.read, eq_comm]
    · split
      · subst a
        by_cases hv : v = Memory.unlisted
        · simp only [hv, if_true, Memory.read]
          grind
        · simp only [hv, if_false, Memory.read, eq_comm]
          grind
      · simp only [Memory.read, ih hm]
        grind

/-- A write keeps the form from any lower bound that the address meets. -/
theorem Memory.write_wfFrom {m : Memory} {lo a : Nat} (v : Byte) (h : m.wfFrom lo = true) (hl : lo ≤ a)
    (ha : a < Config.memSize) : (m.write a v).wfFrom lo = true := by
  induction m generalizing lo with
  | nil => by_cases hv : v = Memory.unlisted <;> simp_all [Memory.write, Memory.wfFrom]
  | cons c m ih =>
    obtain ⟨k, w⟩ := c
    have h0 := h
    simp only [Memory.wfFrom, Bool.and_eq_true, decide_eq_true_eq] at h
    obtain ⟨⟨⟨hk, hk'⟩, hw⟩, hm⟩ := h
    simp only [Memory.write]
    split
    · by_cases hv : v = Memory.unlisted
      · simpa only [hv, if_true] using h0
      · simp only [hv, if_false, Memory.wfFrom, Bool.and_eq_true, decide_eq_true_eq]
        exact ⟨⟨⟨hl, ha⟩, hv⟩, ⟨⟨by omega, hk'⟩, hw⟩, hm⟩
    · split
      · subst a
        by_cases hv : v = Memory.unlisted
        · simpa only [hv, if_true] using Memory.wfFrom_mono hm (by omega)
        · simp only [hv, if_false, Memory.wfFrom, Bool.and_eq_true, decide_eq_true_eq]
          exact ⟨⟨⟨hl, ha⟩, hv⟩, hm⟩
      · simp only [Memory.wfFrom, Bool.and_eq_true, decide_eq_true_eq]
        exact ⟨⟨⟨hk, hk'⟩, hw⟩, ih hm (by omega)⟩

/-- A read after a write: the value written at that address, the old byte elsewhere (R33, R39). -/
theorem Memory.read_write {m : Memory} (h : m.wf = true) (a b : Nat) (v : Byte) :
    (m.write a v).read b = if b = a then v else m.read b :=
  Memory.read_write_from a b v h

/-- A write inside the memory keeps the canonical form. -/
theorem Memory.write_wf {m : Memory} (h : m.wf = true) {a : Nat} (v : Byte) (ha : a < Config.memSize) :
    (m.write a v).wf = true :=
  Memory.write_wfFrom v h (Nat.zero_le a) ha

/-- Consecutive writes inside the memory keep the canonical form. -/
theorem Memory.writeBytes_wf {m : Memory} (h : m.wf = true) (a : Nat) (vs : List Byte)
    (ha : a + vs.length ≤ Config.memSize) : (m.writeBytes a vs).wf = true := by
  induction vs generalizing m a with
  | nil => exact h
  | cons v vs ih =>
    simp only [List.length_cons] at ha
    exact ih (Memory.write_wf h v (by omega)) (a + 1) (by omega)

/-- What consecutive writes leave to read. -/
theorem Memory.read_writeBytes {m : Memory} (h : m.wf = true) (a b : Nat) (vs : List Byte)
    (ha : a + vs.length ≤ Config.memSize) :
    (m.writeBytes a vs).read b = if a ≤ b ∧ b < a + vs.length then vs.getD (b - a) 0#8 else m.read b := by
  induction vs generalizing m a with
  | nil =>
    have : ¬ (a ≤ b ∧ b < a) := by omega
    simp [Memory.writeBytes, this]
  | cons v vs ih =>
    simp only [List.length_cons] at ha
    rw [Memory.writeBytes, ih (Memory.write_wf h v (by omega)) (a + 1) (by omega), Memory.read_write h]
    simp only [List.length_cons]
    rcases Nat.lt_trichotomy b a with hb | rfl | hb
    · have h1 : ¬ (a + 1 ≤ b ∧ b < a + 1 + vs.length) := by omega
      have h2 : ¬ (a ≤ b ∧ b < a + (vs.length + 1)) := by omega
      rw [if_neg h1, if_neg h2, if_neg (Nat.ne_of_lt hb)]
    · have h1 : ¬ (b + 1 ≤ b ∧ b < b + 1 + vs.length) := by omega
      have h2 : b ≤ b ∧ b < b + (vs.length + 1) := by omega
      rw [if_neg h1, if_pos h2, if_pos rfl, Nat.sub_self]
      rfl
    · obtain ⟨d, rfl⟩ := Nat.exists_eq_add_of_lt hb
      have e1 : a + d + 1 - (a + 1) = d := by omega
      have e2 : a + d + 1 - a = d + 1 := by omega
      have e3 : ¬ a + d + 1 = a := by omega
      have e4 : (a + 1 ≤ a + d + 1 ∧ a + d + 1 < a + 1 + vs.length) ↔
          (a ≤ a + d + 1 ∧ a + d + 1 < a + (vs.length + 1)) := by omega
      simp only [e1, e2, e3, e4, if_false, List.getD_cons_succ]

/-- In canonical form, memories that read alike are equal data. -/
theorem Memory.eq_of_read_eq {m n : Memory} {lo : Nat} (hm : m.wfFrom lo = true) (hn : n.wfFrom lo = true)
    (h : ∀ a, m.read a = n.read a) : m = n := by
  induction m generalizing n lo with
  | nil =>
    cases n with
    | nil => rfl
    | cons c n =>
      obtain ⟨k, v⟩ := c
      simp only [Memory.wfFrom, Bool.and_eq_true, decide_eq_true_eq] at hn
      exact absurd (by simpa [Memory.read] using (h k).symm) hn.1.2
  | cons c m ih =>
    obtain ⟨k, v⟩ := c
    have hm0 := hm
    simp only [Memory.wfFrom, Bool.and_eq_true, decide_eq_true_eq] at hm
    cases n with
    | nil => exact absurd (by simpa [Memory.read] using h k) hm.1.2
    | cons d n =>
      obtain ⟨l, w⟩ := d
      have hn0 := hn
      simp only [Memory.wfFrom, Bool.and_eq_true, decide_eq_true_eq] at hn
      have hkl : k = l := by
        rcases Nat.lt_trichotomy k l with c | c | c
        · have := h k
          rw [Memory.read_below (m := (l, w) :: n) (lo := l) (by
            simp only [Memory.wfFrom, Bool.and_eq_true, decide_eq_true_eq]
            exact ⟨⟨⟨by omega, hn.1.1.2⟩, hn.1.2⟩, hn.2⟩) c] at this
          exact absurd (by simpa [Memory.read] using this) hm.1.2
        · exact c
        · have := h l
          rw [Memory.read_below (m := (k, v) :: m) (lo := k) (by
            simp only [Memory.wfFrom, Bool.and_eq_true, decide_eq_true_eq]
            exact ⟨⟨⟨by omega, hm.1.1.2⟩, hm.1.2⟩, hm.2⟩) c] at this
          exact absurd (by simpa [Memory.read] using this.symm) hn.1.2
      subst hkl
      have hv : v = w := by simpa [Memory.read] using h k
      subst hv
      have : m = n := ih hm.2 hn.2 fun a => by
        by_cases ha : k = a
        · subst ha
          rw [Memory.read_below hm.2 (by omega), Memory.read_below hn.2 (by omega)]
        · simpa [Memory.read, ha] using h a
      rw [this]

/-- The memory at reset is in canonical form, for every SP_INIT. -/
theorem Memory.create_wf (spInit : Byte) : (State.create spInit).mem.wf = true := rfl

/-- The load operation keeps the canonical form. -/
theorem State.load_wf {s s' : State} {bytes : List Byte} (h : s.mem.wf = true)
    (hl : s.load bytes = .loaded s') : s'.mem.wf = true := by
  unfold State.load at hl
  split at hl
  · cases hl
  · cases hl
    exact Memory.writeBytes_wf h 0 bytes (by omega)

/-- Placing an instruction at the pc keeps the canonical form. -/
theorem placeAtPc_wf {s : State} (h : s.mem.wf = true) (bytes : List Byte) :
    (placeAtPc s bytes).mem.wf = true := by
  refine Memory.writeBytes_wf h _ _ ?_
  have := s.pc.isLt
  simp only [List.length_take, Config.memSize]
  omega

end Sys2Proof.Machine
end

