-- ==== Sys2Proof/Laws/State.lean ====
section
/-! SUPPORT. One lemma per field and update, true by rfl, and reading a register after writing one. -/

namespace Sys2Proof.Machine

variable (s : State) (i : RegIdx) (v : Byte) (r : Raise)

@[simp] theorem State.setReg_pc : (s.setReg i v).pc = s.pc := rfl
@[simp] theorem State.setReg_mem : (s.setReg i v).mem = s.mem := rfl
@[simp] theorem State.setReg_status : (s.setReg i v).status = s.status := rfl
@[simp] theorem State.setReg_fault : (s.setReg i v).fault = s.fault := rfl
@[simp] theorem State.setReg_out : (s.setReg i v).out = s.out := rfl

@[simp] theorem State.setSp_pc : (s.setSp v).pc = s.pc := rfl
@[simp] theorem State.setSp_mem : (s.setSp v).mem = s.mem := rfl
@[simp] theorem State.setSp_status : (s.setSp v).status = s.status := rfl
@[simp] theorem State.setSp_fault : (s.setSp v).fault = s.fault := rfl
@[simp] theorem State.setSp_out : (s.setSp v).out = s.out := rfl

@[simp] theorem State.setPc_x : (s.setPc v).x = s.x := rfl
@[simp] theorem State.setPc_pc : (s.setPc v).pc = v := rfl
@[simp] theorem State.setPc_mem : (s.setPc v).mem = s.mem := rfl
@[simp] theorem State.setPc_status : (s.setPc v).status = s.status := rfl
@[simp] theorem State.setPc_fault : (s.setPc v).fault = s.fault := rfl
@[simp] theorem State.setPc_out : (s.setPc v).out = s.out := rfl
@[simp] theorem State.setPc_reg : (s.setPc v).reg i = s.reg i := rfl
@[simp] theorem State.setPc_sp : (s.setPc v).sp = s.sp := rfl

@[simp] theorem State.halt_x : s.halt.x = s.x := rfl
@[simp] theorem State.halt_pc : s.halt.pc = s.pc := rfl
@[simp] theorem State.halt_mem : s.halt.mem = s.mem := rfl
@[simp] theorem State.halt_status : s.halt.status = .halted := rfl
@[simp] theorem State.halt_fault : s.halt.fault = s.fault := rfl
@[simp] theorem State.halt_out : s.halt.out = s.out := rfl

@[simp] theorem State.emit_x : (s.emit v).x = s.x := rfl
@[simp] theorem State.emit_pc : (s.emit v).pc = s.pc := rfl
@[simp] theorem State.emit_mem : (s.emit v).mem = s.mem := rfl
@[simp] theorem State.emit_status : (s.emit v).status = s.status := rfl
@[simp] theorem State.emit_fault : (s.emit v).fault = s.fault := rfl
@[simp] theorem State.emit_out : (s.emit v).out = s.out ++ [v] := rfl

@[simp] theorem State.takeFault_x : (s.takeFault r).x = s.x := rfl
@[simp] theorem State.takeFault_pc : (s.takeFault r).pc = s.pc := rfl
@[simp] theorem State.takeFault_mem : (s.takeFault r).mem = s.mem := rfl
@[simp] theorem State.takeFault_status : (s.takeFault r).status = .faulted := rfl
@[simp] theorem State.takeFault_fault :
    (s.takeFault r).fault = some ⟨r.cause, s.pc, s.mem.read s.pc.toNat, r.value⟩ := rfl
@[simp] theorem State.takeFault_out : (s.takeFault r).out = s.out := rfl

variable (m : Memory)

@[simp] theorem State.setMem_x : (s.setMem m).x = s.x := rfl
@[simp] theorem State.setMem_pc : (s.setMem m).pc = s.pc := rfl
@[simp] theorem State.setMem_mem : (s.setMem m).mem = m := rfl
@[simp] theorem State.setMem_status : (s.setMem m).status = s.status := rfl
@[simp] theorem State.setMem_fault : (s.setMem m).fault = s.fault := rfl
@[simp] theorem State.setMem_out : (s.setMem m).out = s.out := rfl
@[simp] theorem State.setMem_reg : (s.setMem m).reg i = s.reg i := rfl
@[simp] theorem State.setMem_sp : (s.setMem m).sp = s.sp := rfl
@[simp] theorem State.takeFault_reg : (s.takeFault r).reg i = s.reg i := rfl
@[simp] theorem State.halt_reg : s.halt.reg i = s.reg i := rfl
@[simp] theorem State.emit_reg : (s.emit v).reg i = s.reg i := rfl

/-- A register read sees the last write to that register, and no other (R13, R71). -/
@[simp] theorem State.reg_setReg (j : RegIdx) :
    (s.setReg i v).reg j = if j = i then v else s.reg j := by
  unfold State.reg State.setReg
  by_cases h : j = i
  · subst h; simp
  · have : i.val ≠ j.val := fun e => h (Fin.ext e.symm)
    simp [h, this]

@[simp] theorem State.reg_setSp (j : RegIdx) :
    (s.setSp v).reg j = if j = 7 then v else s.reg j := State.reg_setReg s 7 v j

@[simp] theorem State.sp_setSp : (s.setSp v).sp = v := by simp [State.sp]

@[simp] theorem State.sp_setReg : (s.setReg i v).sp = if i = 7 then v else s.sp := by
  simp [State.sp, eq_comm]

/-- Two register files that read alike are equal. -/
theorem State.x_ext {s t : State} (h : ∀ i, s.reg i = t.reg i) : s.x = t.x :=
  Vector.ext fun i hi => h ⟨i, hi⟩

end Sys2Proof.Machine
end

