-- ==== Sys2Proof/Laws/Ops.lean ====
section
/-! SUPPORT. For each shared operation, everything it can do, said once; cite these instead of unfolding. -/

namespace Sys2Proof.Machine

@[simp] theorem seq_ok {ε α β : Type} (a : α) (f : α → Except ε β) :
    (Except.ok a >>= f) = f a := rfl

@[simp] theorem seq_error {ε α β : Type} (e : ε) (f : α → Except ε β) :
    ((Except.error e : Except ε α) >>= f) = .error e := rfl

/-- A sequence of statements that completes: each one did. -/
theorem seq_eq_ok {ε α β : Type} {x : Except ε α} {f : α → Except ε β} {b : β}
    (h : x >>= f = .ok b) : ∃ a, x = .ok a ∧ f a = .ok b := by
  cases x with
  | error e => cases h
  | ok a => exact ⟨a, rfl, h⟩

/-- A sequence of statements that raises: the first raised, or a later one did. -/
theorem seq_eq_error {ε α β : Type} {x : Except ε α} {f : α → Except ε β} {e : ε}
    (h : x >>= f = .error e) : x = .error e ∨ ∃ a, x = .ok a ∧ f a = .error e := by
  cases x with
  | error e' => exact .inl (by cases h; rfl)
  | ok a => exact .inr ⟨a, rfl, h⟩

/-- A memory address inside 0..255 passes the check. -/
theorem checkAddress_nat {n : Nat} (h : n ≤ 255) : checkAddress n = .ok n := by
  have : ¬ ((n : Int) < 0 ∨ (n : Int) > 255) := by omega
  rw [checkAddress, if_neg this, Int.toNat_natCast]

/-- The address check, whole. -/
theorem checkAddress_cases (addr : Int) :
    (0 ≤ addr ∧ addr ≤ 255 ∧ checkAddress addr = .ok addr.toNat) ∨
      ((addr < 0 ∨ addr > 255) ∧ checkAddress addr = .error ⟨.addressOutOfRange, addr⟩) := by
  unfold checkAddress
  split
  · exact .inr ⟨by assumption, rfl⟩
  · exact .inl ⟨by omega, by omega, rfl⟩

theorem memRead_nat {n : Nat} (h : n ≤ 255) (s : State) : memRead n s = .ok (s.mem.read n) := by
  simp only [memRead, checkAddress_nat h]; rfl

@[simp] theorem memRead_byte (p : Byte) (s : State) :
    memRead (p.toNat : Int) s = .ok (s.mem.read p.toNat) := memRead_nat (by omega) s

theorem memWrite_nat {n : Nat} (h : n ≤ 255) (v : Byte) (s : State) :
    memWrite n v s = .ok (s.setMem (s.mem.write n v)) := by
  simp only [memWrite, checkAddress_nat h]; rfl

@[simp] theorem memWrite_byte (p v : Byte) (s : State) :
    memWrite (p.toNat : Int) v s = .ok (s.setMem (s.mem.write p.toNat v)) := memWrite_nat (by omega) v s

/-- The register-index check, whole. -/
theorem regidx_cases (r : Byte) :
    (∃ i : RegIdx, i.val = r.toNat ∧ regidx r = .ok i) ∨
      (r.toNat > 7 ∧ regidx r = .error ⟨.addressOutOfRange, r.toNat⟩) := by
  unfold regidx
  split
  · exact .inl ⟨_, rfl, rfl⟩
  · exact .inr ⟨by omega, rfl⟩

/-- A byte that names register `i` passes the check as `i`. -/
theorem regidx_of_val {r : Byte} {i : RegIdx} (h : r.toNat = i.val) : regidx r = .ok i := by
  have : r.toNat ≤ 7 := by omega
  rw [regidx, dif_pos this]
  exact congrArg _ (Fin.ext h)

/-- The sequential advance, whole. -/
theorem advance_cases (len : Nat) (s : State) :
    (s.pc.toNat + len ≤ 255 ∧ ∃ p : Byte, p.toNat = s.pc.toNat + len ∧ advance len s = .ok (s.setPc p)) ∨
      (s.pc.toNat + len > 255 ∧ advance len s = .error ⟨.addressOutOfRange, s.pc.toNat + len⟩) := by
  unfold advance
  split
  · exact .inr ⟨by assumption, rfl⟩
  · refine .inl ⟨by omega, _, ?_, rfl⟩
    rw [BitVec.toNat_ofNat]
    omega

/-- The checked SP decrement, whole. -/
theorem spdec_cases (s : State) :
    (s.sp ≠ 0#8 ∧ spdec s = .ok (s.setSp (s.sp - 1#8)) ∧ (s.sp - 1#8).toNat + 1 = s.sp.toNat) ∨
      (s.sp = 0#8 ∧ spdec s = .error ⟨.addressOutOfRange, -1⟩) := by
  unfold spdec
  split
  · exact .inr ⟨by assumption, rfl⟩
  · exact .inl ⟨by assumption, rfl, by bv_omega⟩

/-- The checked SP increment, whole. -/
theorem spinc_cases (s : State) :
    (s.sp ≠ 255#8 ∧ spinc s = .ok (s.setSp (s.sp + 1#8)) ∧ (s.sp + 1#8).toNat = s.sp.toNat + 1) ∨
      (s.sp = 255#8 ∧ spinc s = .error ⟨.addressOutOfRange, 256⟩) := by
  unfold spinc
  split
  · exact .inr ⟨by assumption, rfl⟩
  · exact .inl ⟨by assumption, rfl, by bv_omega⟩

@[simp] theorem sumMod256_toNat (u v : Byte) : (sumMod256 u v).toNat = (u.toNat + v.toNat) % 256 := by
  rw [sumMod256, BitVec.toNat_ofNat]; omega

@[simp] theorem productMod256_toNat (u v : Byte) : (productMod256 u v).toNat = (u.toNat * v.toNat) % 256 := by
  rw [productMod256, BitVec.toNat_ofNat]; omega

/-- The end of an instruction: its working copy, or the fault of its raise, always a next state. -/
theorem commit_cases {s : State} {x : Except Raise State} :
    (∃ t, x = .ok t ∧ commit s x = .next t) ∨ (∃ r, x = .error r ∧ commit s x = .next (s.takeFault r)) := by
  cases x with
  | ok t => exact .inl ⟨t, rfl, rfl⟩
  | error r => exact .inr ⟨r, rfl, rfl⟩

/-- The end of an instruction, read backward from the next state. -/
theorem commit_eq_next {s t : State} {x : Except Raise State} (h : commit s x = .next t) :
    x = .ok t ∨ ∃ r, x = .error r ∧ t = s.takeFault r := by
  cases x with
  | ok t' => exact .inl (by cases h; rfl)
  | error r => exact .inr ⟨r, rfl, by cases h; rfl⟩

@[simp] theorem commit_ok (s t : State) : commit s (.ok t) = .next t := rfl

@[simp] theorem commit_error (s : State) (r : Raise) : commit s (.error r) = .next (s.takeFault r) := rfl

end Sys2Proof.Machine
end

