-- ==== Sys2Proof/Laws/Fetch.lean ====
section
/-! SUPPORT. The fetch and the decode of a cycle, said once. -/

namespace Sys2Proof

/-- What the decoder can answer: an instruction with the opcode fetched, or a refusal of that opcode. -/
theorem decode_cases (op a b : Byte) :
    (∃ i, decode op a b = .ok i ∧ i.opcode = op) ∨ decode op a b = .error (.unknownOpcode op) := by
  unfold decode
  repeat' split
  all_goals first
    | (subst_vars; exact .inl ⟨_, rfl, rfl⟩)
    | exact .inr rfl

/-- What a decoded instruction says of the three bytes. -/
theorem decode_eq_ok {op a b : Byte} {i : Instr} (h : decode op a b = .ok i) :
    (i = .ldi a b ∧ op = 0x82#8) ∨ (i = .prn a ∧ op = 0x47#8) ∨ (i = .hlt ∧ op = 0x01#8) ∨
      (i = .mul a b ∧ op = 0xA2#8) ∨ (i = .add a b ∧ op = 0xA0#8) ∨ (i = .push a ∧ op = 0x45#8) ∨
      (i = .pop a ∧ op = 0x46#8) ∨ (i = .call a ∧ op = 0x50#8) ∨ (i = .ret ∧ op = 0x11#8) := by
  unfold decode at h
  repeat' split at h
  all_goals (cases h <;> simp_all)

/-- The nine opcodes. -/
theorem Instr.opcode_mem (i : Instr) :
    i.opcode ∈ ([0x82#8, 0x47#8, 0x01#8, 0xA2#8, 0xA0#8, 0x45#8, 0x46#8, 0x50#8, 0x11#8] : List Byte) := by
  cases i <;> simp [Instr.opcode]

end Sys2Proof

namespace Sys2Proof.Machine

/-- The decode of a cycle, whole. -/
theorem decodeOrRaise_cases (op a b : Byte) :
    (∃ i, decode op a b = .ok i ∧ decodeOrRaise op a b = .ok i) ∨
      (decode op a b = .error (.unknownOpcode op) ∧
        decodeOrRaise op a b = .error ⟨.unknownOpcode, op.toNat⟩) := by
  unfold decodeOrRaise
  rcases decode_cases op a b with ⟨i, h, _⟩ | h
  · exact .inl ⟨i, h, by rw [h]⟩
  · exact .inr ⟨h, by rw [h]⟩

theorem memRead_succ {p : Byte} {n : Nat} (h : p.toNat + n ≤ 255) (s : State) :
    memRead ((p.toNat : Int) + (n : Int)) s = .ok (s.mem.read (p.toNat + n)) := memRead_nat h s

/-- The fetch and decode of a cycle, whole: the operand fetch raises at pc 254 and 255; otherwise the three bytes
decode to an instruction or to an unknown opcode. -/
theorem fetchInstr_cases (s : State) :
    (254 ≤ s.pc.toNat ∧ fetchInstr s = .error ⟨.addressOutOfRange, 256⟩) ∨
      (s.pc.toNat ≤ 253 ∧ ∃ i,
        decode (s.mem.read s.pc.toNat) (s.mem.read (s.pc.toNat + 1)) (s.mem.read (s.pc.toNat + 2)) = .ok i ∧
          fetchInstr s = .ok i) ∨
      (s.pc.toNat ≤ 253 ∧
        decode (s.mem.read s.pc.toNat) (s.mem.read (s.pc.toNat + 1)) (s.mem.read (s.pc.toNat + 2)) =
          .error (.unknownOpcode (s.mem.read s.pc.toNat)) ∧
        fetchInstr s = .error ⟨.unknownOpcode, (s.mem.read s.pc.toNat).toNat⟩) := by
  by_cases h : s.pc.toNat ≤ 253
  · right
    have h1 : memRead ((s.pc.toNat : Int) + 1) s = .ok _ := memRead_succ (n := 1) (by omega) s
    have h2 : memRead ((s.pc.toNat : Int) + 2) s = .ok _ := memRead_succ (n := 2) (by omega) s
    have e : fetchInstr s = decodeOrRaise (s.mem.read s.pc.toNat) (s.mem.read (s.pc.toNat + 1))
        (s.mem.read (s.pc.toNat + 2)) := by
      simp only [fetchInstr, fetch, h1, h2, memRead_byte, seq_ok]; rfl
    rcases decodeOrRaise_cases (s.mem.read s.pc.toNat) (s.mem.read (s.pc.toNat + 1))
      (s.mem.read (s.pc.toNat + 2)) with ⟨i, hd, hr⟩ | ⟨hd, hr⟩
    · exact .inl ⟨h, i, hd, e.trans hr⟩
    · exact .inr ⟨h, hd, e.trans hr⟩
  · have : s.pc.toNat = 254 ∨ s.pc.toNat = 255 := by omega
    refine .inl ⟨by omega, ?_⟩
    rcases this with h | h <;> (simp only [fetchInstr, fetch, h]; rfl)

end Sys2Proof.Machine
end

