-- ==== Sys2Proof/Laws/Exec.lean ====
section
/-! SUPPORT. For each instruction, everything its meaning can do, said once: the working copy it commits, or the
raise it takes, in the order of its pseudocode; and the same for a step. Cite these instead of unfolding. -/

namespace Sys2Proof.Machine

/-- LDI, whole (R77). -/
theorem execLdi_cases (a imm : Byte) (s : State) :
    (a.toNat > 7 ∧ execLdi a imm s = .next (s.takeFault ⟨.addressOutOfRange, a.toNat⟩)) ∨
      ∃ i : RegIdx, i.val = a.toNat ∧
        ((s.pc.toNat + 3 ≤ 255 ∧ ∃ p : Byte, p.toNat = s.pc.toNat + 3 ∧
            execLdi a imm s = .next ((s.setReg i imm).setPc p)) ∨
          (s.pc.toNat + 3 > 255 ∧
            execLdi a imm s = .next (s.takeFault ⟨.addressOutOfRange, s.pc.toNat + 3⟩))) := by
  rcases regidx_cases a with ⟨i, hi, e⟩ | ⟨h, e⟩
  · refine .inr ⟨i, hi, ?_⟩
    rcases advance_cases 3 (s.setReg i imm) with ⟨h, p, hp, f⟩ | ⟨h, f⟩
    · exact .inl ⟨h, p, hp, by simp only [execLdi, e, seq_ok, f, commit_ok]⟩
    · exact .inr ⟨h, by simp only [execLdi, e, seq_ok, f, commit_error]; rfl⟩
  · exact .inl ⟨h, by simp only [execLdi, e, seq_error, commit_error]⟩

/-- PRN, whole (R78). -/
theorem execPrn_cases (a : Byte) (s : State) :
    (a.toNat > 7 ∧ execPrn a s = .next (s.takeFault ⟨.addressOutOfRange, a.toNat⟩)) ∨
      ∃ i : RegIdx, i.val = a.toNat ∧
        ((s.pc.toNat + 2 ≤ 255 ∧ ∃ p : Byte, p.toNat = s.pc.toNat + 2 ∧
            execPrn a s = .next ((s.emit (s.reg i)).setPc p)) ∨
          (s.pc.toNat + 2 > 255 ∧
            execPrn a s = .next (s.takeFault ⟨.addressOutOfRange, s.pc.toNat + 2⟩))) := by
  rcases regidx_cases a with ⟨i, hi, e⟩ | ⟨h, e⟩
  · refine .inr ⟨i, hi, ?_⟩
    rcases advance_cases 2 (s.emit (s.reg i)) with ⟨h, p, hp, f⟩ | ⟨h, f⟩
    · exact .inl ⟨h, p, hp, by simp only [execPrn, e, seq_ok, f, commit_ok]⟩
    · exact .inr ⟨h, by simp only [execPrn, e, seq_ok, f, commit_error]; rfl⟩
  · exact .inl ⟨h, by simp only [execPrn, e, seq_error, commit_error]⟩

/-- HLT, whole (R79). -/
theorem execHlt_cases (s : State) :
    (s.pc.toNat + 1 ≤ 255 ∧ ∃ p : Byte, p.toNat = s.pc.toNat + 1 ∧ execHlt s = .next (s.halt.setPc p)) ∨
      (s.pc.toNat + 1 > 255 ∧
        execHlt s = .next (s.takeFault ⟨.addressOutOfRange, s.pc.toNat + 1⟩)) := by
  rcases advance_cases 1 s.halt with ⟨h, p, hp, f⟩ | ⟨h, f⟩
  · exact .inl ⟨h, p, hp, by simp only [execHlt, f, commit_ok]⟩
  · exact .inr ⟨h, by simp only [execHlt, f, commit_error]; rfl⟩

/-- The end of ADD and of MUL, whose result goes to register `i`. -/
theorem writeThenAdvance_cases (i : RegIdx) (v : Byte) (s : State) :
    (s.pc.toNat + 3 ≤ 255 ∧ ∃ p : Byte, p.toNat = s.pc.toNat + 3 ∧
        advance 3 (s.setReg i v) = .ok ((s.setReg i v).setPc p)) ∨
      (s.pc.toNat + 3 > 255 ∧
        advance 3 (s.setReg i v) = .error ⟨.addressOutOfRange, s.pc.toNat + 3⟩) :=
  advance_cases 3 (s.setReg i v)

/-- MUL, whole (R83). -/
theorem execMul_cases (a b : Byte) (s : State) :
    (a.toNat > 7 ∧ execMul a b s = .next (s.takeFault ⟨.addressOutOfRange, a.toNat⟩)) ∨
      (a.toNat ≤ 7 ∧ b.toNat > 7 ∧ execMul a b s = .next (s.takeFault ⟨.addressOutOfRange, b.toNat⟩)) ∨
      ∃ i j : RegIdx, i.val = a.toNat ∧ j.val = b.toNat ∧
        ((s.pc.toNat + 3 ≤ 255 ∧ ∃ p : Byte, p.toNat = s.pc.toNat + 3 ∧
            execMul a b s = .next ((s.setReg i (productMod256 (s.reg i) (s.reg j))).setPc p)) ∨
          (s.pc.toNat + 3 > 255 ∧
            execMul a b s = .next (s.takeFault ⟨.addressOutOfRange, s.pc.toNat + 3⟩))) := by
  rcases regidx_cases a with ⟨i, hi, e⟩ | ⟨h, e⟩
  · rcases regidx_cases b with ⟨j, hj, e'⟩ | ⟨h, e'⟩
    · refine .inr (.inr ⟨i, j, hi, hj, ?_⟩)
      rcases writeThenAdvance_cases i (productMod256 (s.reg i) (s.reg j)) s with ⟨h, p, hp, f⟩ | ⟨h, f⟩
      · exact .inl ⟨h, p, hp, by simp only [execMul, e, e', seq_ok, f, commit_ok]⟩
      · exact .inr ⟨h, by simp only [execMul, e, e', seq_ok, f, commit_error]⟩
    · exact .inr (.inl ⟨by omega, h, by simp only [execMul, e, e', seq_ok, seq_error, commit_error]⟩)
  · exact .inl ⟨h, by simp only [execMul, e, seq_error, commit_error]⟩

/-- ADD, whole (R82). -/
theorem execAdd_cases (a b : Byte) (s : State) :
    (a.toNat > 7 ∧ execAdd a b s = .next (s.takeFault ⟨.addressOutOfRange, a.toNat⟩)) ∨
      (a.toNat ≤ 7 ∧ b.toNat > 7 ∧ execAdd a b s = .next (s.takeFault ⟨.addressOutOfRange, b.toNat⟩)) ∨
      ∃ i j : RegIdx, i.val = a.toNat ∧ j.val = b.toNat ∧
        ((s.pc.toNat + 3 ≤ 255 ∧ ∃ p : Byte, p.toNat = s.pc.toNat + 3 ∧
            execAdd a b s = .next ((s.setReg i (sumMod256 (s.reg i) (s.reg j))).setPc p)) ∨
          (s.pc.toNat + 3 > 255 ∧
            execAdd a b s = .next (s.takeFault ⟨.addressOutOfRange, s.pc.toNat + 3⟩))) := by
  rcases regidx_cases a with ⟨i, hi, e⟩ | ⟨h, e⟩
  · rcases regidx_cases b with ⟨j, hj, e'⟩ | ⟨h, e'⟩
    · refine .inr (.inr ⟨i, j, hi, hj, ?_⟩)
      rcases writeThenAdvance_cases i (sumMod256 (s.reg i) (s.reg j)) s with ⟨h, p, hp, f⟩ | ⟨h, f⟩
      · exact .inl ⟨h, p, hp, by simp only [execAdd, alu, e, e', seq_ok, f, commit_ok]⟩
      · exact .inr ⟨h, by simp only [execAdd, alu, e, e', seq_ok, f, commit_error]⟩
    · exact .inr (.inl ⟨by omega, h, by simp only [execAdd, e, e', seq_ok, seq_error, commit_error]⟩)
  · exact .inl ⟨h, by simp only [execAdd, e, seq_error, commit_error]⟩

/-- PUSH, whole (R87). -/
theorem execPush_cases (a : Byte) (s : State) :
    (a.toNat > 7 ∧ execPush a s = .next (s.takeFault ⟨.addressOutOfRange, a.toNat⟩)) ∨
      ∃ i : RegIdx, i.val = a.toNat ∧
        ((s.sp = 0#8 ∧ execPush a s = .next (s.takeFault ⟨.addressOutOfRange, -1⟩)) ∨
          (s.sp ≠ 0#8 ∧ s.pc.toNat + 2 ≤ 255 ∧ ∃ p : Byte, p.toNat = s.pc.toNat + 2 ∧
            execPush a s = .next (((s.setSp (s.sp - 1#8)).setMem
              (s.mem.write (s.sp - 1#8).toNat (if i = 7 then s.sp - 1#8 else s.reg i))).setPc p)) ∨
          (s.sp ≠ 0#8 ∧ s.pc.toNat + 2 > 255 ∧
            execPush a s = .next (s.takeFault ⟨.addressOutOfRange, s.pc.toNat + 2⟩))) := by
  rcases regidx_cases a with ⟨i, hi, e⟩ | ⟨h, e⟩
  · refine .inr ⟨i, hi, ?_⟩
    rcases spdec_cases s with ⟨h, d, _⟩ | ⟨h, d⟩
    · rcases advance_cases 2 ((s.setSp (s.sp - 1#8)).setMem
        (s.mem.write (s.sp - 1#8).toNat (if i = 7 then s.sp - 1#8 else s.reg i))) with ⟨h', p, hp, f⟩ | ⟨h', f⟩
      · exact .inr (.inl ⟨h, h', p, hp, by
          simp only [execPush, e, d, seq_ok, memWrite_byte, State.sp_setSp, State.reg_setSp, State.setSp_mem,
            f, commit_ok]⟩)
      · exact .inr (.inr ⟨h, h', by
          simp only [execPush, e, d, seq_ok, memWrite_byte, State.sp_setSp, State.reg_setSp, State.setSp_mem,
            f, commit_error]
          rfl⟩)
    · exact .inl ⟨h, by simp only [execPush, e, d, seq_ok, seq_error, commit_error]⟩
  · exact .inl ⟨h, by simp only [execPush, e, seq_error, commit_error]⟩

/-- POP, whole (R88): `s.setReg i v` is the state after the popped byte has been written. -/
theorem execPop_cases (a : Byte) (s : State) :
    (a.toNat > 7 ∧ execPop a s = .next (s.takeFault ⟨.addressOutOfRange, a.toNat⟩)) ∨
      ∃ i : RegIdx, ∃ s₁, i.val = a.toNat ∧ s₁ = s.setReg i (s.mem.read s.sp.toNat) ∧
        ((s₁.sp = 255#8 ∧ execPop a s = .next (s.takeFault ⟨.addressOutOfRange, 256⟩)) ∨
          (s₁.sp ≠ 255#8 ∧ s.pc.toNat + 2 ≤ 255 ∧ ∃ p : Byte, p.toNat = s.pc.toNat + 2 ∧
            execPop a s = .next ((s₁.setSp (s₁.sp + 1#8)).setPc p)) ∨
          (s₁.sp ≠ 255#8 ∧ s.pc.toNat + 2 > 255 ∧
            execPop a s = .next (s.takeFault ⟨.addressOutOfRange, s.pc.toNat + 2⟩))) := by
  rcases regidx_cases a with ⟨i, hi, e⟩ | ⟨h, e⟩
  · refine .inr ⟨i, _, hi, rfl, ?_⟩
    rcases spinc_cases (s.setReg i (s.mem.read s.sp.toNat)) with ⟨h, d, _⟩ | ⟨h, d⟩
    · rcases advance_cases 2 ((s.setReg i (s.mem.read s.sp.toNat)).setSp
        ((s.setReg i (s.mem.read s.sp.toNat)).sp + 1#8)) with ⟨h', p, hp, f⟩ | ⟨h', f⟩
      · exact .inr (.inl ⟨h, h', p, hp, by simp only [execPop, e, d, seq_ok, memRead_byte, f, commit_ok]⟩)
      · exact .inr (.inr ⟨h, h', by
          simp only [execPop, e, d, seq_ok, memRead_byte, f, commit_error]
          rfl⟩)
    · exact .inl ⟨h, by simp only [execPop, e, d, seq_ok, memRead_byte, seq_error, commit_error]⟩
  · exact .inl ⟨h, by simp only [execPop, e, seq_error, commit_error]⟩

/-- CALL, whole (R89). -/
theorem execCall_cases (a : Byte) (s : State) :
    (a.toNat > 7 ∧ execCall a s = .next (s.takeFault ⟨.addressOutOfRange, a.toNat⟩)) ∨
      ∃ i : RegIdx, i.val = a.toNat ∧
        ((s.sp = 0#8 ∧ execCall a s = .next (s.takeFault ⟨.addressOutOfRange, -1⟩)) ∨
          (s.sp ≠ 0#8 ∧ execCall a s = .next (((s.setSp (s.sp - 1#8)).setMem
            (s.mem.write (s.sp - 1#8).toNat (s.pc + 2#8))).setPc (if i = 7 then s.sp - 1#8 else s.reg i)))) := by
  rcases regidx_cases a with ⟨i, hi, e⟩ | ⟨h, e⟩
  · refine .inr ⟨i, hi, ?_⟩
    rcases spdec_cases s with ⟨h, d, _⟩ | ⟨h, d⟩
    · refine .inr ⟨h, ?_⟩
      simp only [execCall, e, d, seq_ok, memWrite_byte, State.sp_setSp, State.setSp_mem, State.setMem_reg,
        State.reg_setSp]
      rfl
    · exact .inl ⟨h, by simp only [execCall, e, d, seq_ok, seq_error, commit_error]⟩
  · exact .inl ⟨h, by simp only [execCall, e, seq_error, commit_error]⟩

/-- RET, whole (R90). -/
theorem execRet_cases (s : State) :
    (s.sp = 255#8 ∧ execRet s = .next (s.takeFault ⟨.addressOutOfRange, 256⟩)) ∨
      (s.sp ≠ 255#8 ∧ execRet s = .next ((s.setSp (s.sp + 1#8)).setPc (s.mem.read s.sp.toNat))) := by
  rcases spinc_cases s with ⟨h, d, _⟩ | ⟨h, d⟩
  · exact .inr ⟨h, by simp only [execRet, d, seq_ok, memRead_byte]; rfl⟩
  · exact .inl ⟨h, by simp only [execRet, d, seq_ok, memRead_byte, seq_error, commit_error]⟩

/-- A step, whole (R64 to R69): the state itself outside RUNNING, the fault of the fetch or the decode, or the
instruction fetched. -/
theorem step_cases (s : State) :
    (s.status ≠ .running ∧ step s = .next s) ∨
      (s.status = .running ∧ ∃ r, fetchInstr s = .error r ∧ step s = .next (s.takeFault r)) ∨
      (s.status = .running ∧ ∃ i, fetchInstr s = .ok i ∧ step s = exec i s) := by
  by_cases hr : s.status = .running
  · right
    cases hf : fetchInstr s with
    | error r => exact .inl ⟨hr, r, rfl, by simp only [step, hr, hf, if_true]; rfl⟩
    | ok i => exact .inr ⟨hr, i, rfl, by simp only [step, hr, hf, if_true]⟩
  · exact .inl ⟨hr, by simp only [step, hr, if_false]; rfl⟩

end Sys2Proof.Machine
end

