-- ==== Sys2Proof/Laws/PerInstr.lean ====
section
/-! SUPPORT. The statements made of every instruction as syntax, one lemma per constructor (LAWS.json). -/

namespace Sys2Proof.Laws.EncodingLayout

/-- An encoding is the opcode byte, then exactly the operand bytes the format has, the register operands
first and in order (R50, R53), and its number of bytes is the instruction's length (R51). -/
def Statement (i : Instr) : Prop :=
  (encode i).head? = some i.opcode ∧ (encode i).length = i.length ∧
    i.regOperands <+: (encode i).tail ∧
    (i.length = match i.format with
      | .f1 => 1
      | .f2r => 2
      | .f3rr => 3
      | .f3ri => 3)

theorem ldi (a imm : Byte) : Statement (.ldi a imm) := ⟨rfl, rfl, ⟨[imm], rfl⟩, rfl⟩
theorem prn (a : Byte) : Statement (.prn a) := ⟨rfl, rfl, ⟨[], rfl⟩, rfl⟩
theorem hlt : Statement .hlt := ⟨rfl, rfl, ⟨[], rfl⟩, rfl⟩
theorem mul (a b : Byte) : Statement (.mul a b) := ⟨rfl, rfl, ⟨[], rfl⟩, rfl⟩
theorem add (a b : Byte) : Statement (.add a b) := ⟨rfl, rfl, ⟨[], rfl⟩, rfl⟩
theorem push (a : Byte) : Statement (.push a) := ⟨rfl, rfl, ⟨[], rfl⟩, rfl⟩
theorem pop (a : Byte) : Statement (.pop a) := ⟨rfl, rfl, ⟨[], rfl⟩, rfl⟩
theorem call (a : Byte) : Statement (.call a) := ⟨rfl, rfl, ⟨[], rfl⟩, rfl⟩
theorem ret : Statement .ret := ⟨rfl, rfl, ⟨[], rfl⟩, rfl⟩

end Sys2Proof.Laws.EncodingLayout
end

