-- ==== Sys2Proof/Machine/HostText.lean ====
section
/-! DEFINITION. The text forms the spec gives for what passes between the host and the CORE: the assembler
spelling (R61), the program text (R63), the printed output (R109) and the trace line (R106). Reading files and the
command line are the host's (R4). No step reads anything here. -/

namespace Sys2Proof.Machine

/-- A number in decimal (R61, R78). -/
def decimal (n : Nat) : List Char := Nat.toDigits 10 n

/-- A register operand as the assembler writes it: R7, never SP (R61, the spec's decision D22). -/
def registerText (r : Byte) : List Char := 'R' :: decimal r.toNat

/-- The assembler spelling of an instruction (R61): mnemonic, space, operands separated by commas. -/
def assembly : Instr → List Char
  | .ldi a imm => ['L', 'D', 'I', ' '] ++ registerText a ++ [','] ++ decimal imm.toNat
  | .prn a => ['P', 'R', 'N', ' '] ++ registerText a
  | .hlt => ['H', 'L', 'T']
  | .mul a b => ['M', 'U', 'L', ' '] ++ registerText a ++ [','] ++ registerText b
  | .add a b => ['A', 'D', 'D', ' '] ++ registerText a ++ [','] ++ registerText b
  | .push a => ['P', 'U', 'S', 'H', ' '] ++ registerText a
  | .pop a => ['P', 'O', 'P', ' '] ++ registerText a
  | .call a => ['C', 'A', 'L', 'L', ' '] ++ registerText a
  | .ret => ['R', 'E', 'T']

/-- What one line of program text is (R63). -/
inductive ProgramLine where
  /-- Blank after stripping: skipped. -/
  | skipped
  /-- An 8-character binary literal. -/
  | byte (v : Byte)
  /-- Anything else: the spec leaves it to the host as an error (D16, N10; DESIGN CHOICE, unsafe for a claim about
  program text, log entry 20). -/
  | malformed
  deriving DecidableEq, Repr

/-- A base-2 literal read from its most significant digit, if every character is 0 or 1 (R37, R63). -/
def binaryValue : Nat → List Char → Option Nat
  | acc, [] => some acc
  | acc, c :: cs =>
    if c = '0' then binaryValue (2 * acc) cs
    else if c = '1' then binaryValue (2 * acc + 1) cs
    else none

/-- A line without its comment and without surrounding whitespace (R63; which characters those are is PRESUMED, unsafe for
a claim about program text, log entry 20). -/
def stripLine (line : List Char) : List Char :=
  ((((line.takeWhile (fun c => decide (c ≠ '#'))).dropWhile Char.isWhitespace).reverse).dropWhile
    Char.isWhitespace).reverse

/-- One line of program text (R63). -/
def readLine (line : List Char) : ProgramLine :=
  if (stripLine line).length = 0 then .skipped
  else if (stripLine line).length = 8 then
    match binaryValue 0 (stripLine line) with
    | some n => .byte (BitVec.ofNat 8 n)
    | none => .malformed
  else .malformed

/-- The byte sequence of a program text, in order (R63); none where a line is malformed. -/
def readProgram : List (List Char) → Option (List Byte)
  | [] => some []
  | l :: ls =>
    match readLine l, readProgram ls with
    | .skipped, some bs => some bs
    | .byte v, some bs => some (v :: bs)
    | _, _ => none

/-- What the host prints: each byte of the output stream as one unsigned decimal integer on a line of its own, in
execution order (R26, R104, R109, the spec's decision D26). -/
def printedOutput (s : State) : List (List Char) := s.out.map fun v => decimal v.toNat

/-- A hexadecimal digit in upper case. -/
def hexDigit (n : Nat) : Char := if n < 10 then Char.ofNat (48 + n) else Char.ofNat (55 + n)

/-- Two-digit upper-case hexadecimal (R106). -/
def hex2 (v : Byte) : List Char := [hexDigit (v.toNat / 16), hexDigit (v.toNat % 16)]

/-- Space-separated items of a line. -/
def spaced : List (List Char) → List Char
  | [] => []
  | [w] => w
  | w :: ws => w ++ ' ' :: spaced ws

/-- The text line of a trace record: pc, opcode, the next two bytes, then the 8 registers (R106). -/
def TraceRecord.line (r : TraceRecord) : List Char :=
  spaced (([r.pc, r.op, r.a, r.b] ++ r.x.toList).map hex2)

end Sys2Proof.Machine
end

