-- ==== Sys2Proof/Tests/Slice0.lean ====
section
/-! SUPPORT. Tests: expected results are the vectors V<n> and examples E<n>, P<n> of 95_test_vectors.md; and for
each statement with hypotheses a witness that meets them, clause by clause at the ends of the ranges. -/

namespace Sys2Proof.Tests

open Sys2Proof Sys2Proof.Machine

/-- A RUNNING machine with the given pc, SP and bytes from the pc upward. -/
def at_ (pc sp : Byte) (bytes : List Byte) : State :=
  { State.create sp with pc := pc, mem := Memory.writeBytes [] pc.toNat bytes }

/-- One field of the next state. -/
def got {α : Type} (o : Host.Outcome State Fault Refusal) (f : State → α) : Option α :=
  match o with
  | .next t => some (f t)
  | .fault _ => none
  | .refused _ => none

/-- The cause, pc, opcode and value of a fault taken. -/
def record (s : State) : Option (Cause × Byte × Byte × Int) := s.fault.map fun r => (r.cause, r.pc, r.opcode, r.value)

/-! ### Well-formedness: an ill-formed term for the check, which the check refuses -/

theorem test_wellFormed_accepts_r7 : (Instr.add 7#8 0#8).wellFormed = true := by decide
theorem test_wellFormed_refuses_operand_a : (Instr.ldi 8#8 1#8).wellFormed = false := by decide
theorem test_wellFormed_refuses_operand_b : (Instr.mul 0#8 8#8).wellFormed = false := by decide
theorem test_wellFormed_ignores_immediate : (Instr.ldi 0#8 255#8).wellFormed = true := by decide

/-! ### Decoding: words written out from R53 and E8 -/

theorem test_decode_ldi : decode 0b10000010 3 255 = .ok (.ldi 3 255) := rfl
theorem test_decode_prn : decode 0b01000111 2 9 = .ok (.prn 2) := rfl
theorem test_decode_hlt : decode 0b00000001 7 9 = .ok .hlt := rfl
theorem test_decode_mul : decode 0b10100010 1 0 = .ok (.mul 1 0) := rfl
theorem test_decode_add : decode 0b10100000 9 8 = .ok (.add 9 8) := rfl
theorem test_decode_push : decode 0b01000101 7 0 = .ok (.push 7) := rfl
theorem test_decode_pop : decode 0b01000110 1 0 = .ok (.pop 1) := rfl
theorem test_decode_call : decode 0b01010000 1 0 = .ok (.call 1) := rfl
theorem test_decode_ret : decode 0b00010001 0 0 = .ok .ret := rfl
theorem test_decode_refuses_zero : decode 0 0 0 = .error (.unknownOpcode 0) := rfl
/-- V3: the length bits of 0x02 are those of HLT. -/
theorem test_decode_refuses_02 : decode 0x02 0 0 = .error (.unknownOpcode 2) := rfl
theorem test_tableWord_ldi : decodeTableWord 24 0x080082 = some (.ldi 0 8) := rfl
theorem test_tableWord_opcode_only : decodeTableWord 8 0xA0 = some (.add 0 0) := rfl
theorem test_fetchWord_runs : got (step (State.reset.withFetchWord 24 0xFF0382)) (·.reg 3) = some 255#8 := by decide

/-! ### One step each -/

/-- V14: SP is set, with no SP check. -/
theorem test_ldi_sets_sp : got (step (at_ 0 0xF4 [0x82, 0x07, 0x10])) (fun t => (t.sp, t.pc)) = some (0x10#8, 3#8) := by
  decide
/-- V8: the advance to 256 faults and x[0] stays 0. -/
theorem test_ldi_at_253 : got (step (at_ 253 0xF4 [0x82, 0x00, 0x05])) (fun t => (record t, t.reg 0)) =
    some (some (.addressOutOfRange, 253#8, 0x82#8, 256), 0#8) := by decide
/-- V18. -/
theorem test_prn_sp : got (step (at_ 0 0xF4 [0x47, 0x07])) (fun t => (t.out, t.pc)) = some ([244#8], 2#8) := by decide
/-- V19: nothing is emitted. -/
theorem test_prn_bad_index : got (step (at_ 0 0xF4 [0x47, 0x08])) (fun t => (record t, t.out)) =
    some (some (.addressOutOfRange, 0#8, 0x47#8, 8), []) := by decide
/-- V7. -/
theorem test_hlt_at_253 : got (step (at_ 253 0xF4 [0x01])) (fun t => (t.status, t.pc)) = some (.halted, 254#8) := by
  decide
/-- V5: HLT at 254 does not execute. -/
theorem test_hlt_at_254 : got (step (at_ 254 0xF4 [0x01])) (fun t => (t.status, record t)) =
    some (.faulted, some (.addressOutOfRange, 254#8, 0x01#8, 256)) := by decide
/-- V30: 260 mod 256. -/
theorem test_mul_wraps : got (step (((at_ 0 0xF4 [0xA2, 0x00, 0x01]).setReg 0 20).setReg 1 13))
    (fun t => (t.reg 0, t.reg 1, t.pc)) = some (4#8, 13#8, 3#8) := by decide
/-- V37: the same register twice. -/
theorem test_mul_squares : got (step ((at_ 0 0xF4 [0xA2, 0x03, 0x03]).setReg 3 12)) (·.reg 3) = some 144#8 := by decide
/-- V29: 0xF4 + 0x10 wraps, with no SP check. -/
theorem test_add_sp_wraps : got (step ((at_ 0 0xF4 [0xA0, 0x07, 0x00]).setReg 0 0x10)) (·.sp) = some 4#8 := by decide
/-- V28: operand A is checked before operand B. -/
theorem test_add_checks_a_first : got (step (at_ 0 0xF4 [0xA0, 0x09, 0x08])) record =
    some (some (.addressOutOfRange, 0#8, 0xA0#8, 9)) := by decide
/-- V42: the decremented SP is stored. -/
theorem test_push_sp : got (step (at_ 0 0xF4 [0x45, 0x07])) (fun t => (t.sp, t.mem.read 0xF3)) =
    some (0xF3#8, 0xF3#8) := by decide
/-- V44: its own operand byte is already latched. -/
theorem test_push_over_itself : got (step ((at_ 10 12 [0x45, 0x00]).setReg 0 0x33))
    (fun t => (t.sp, t.mem.read 11, t.pc)) = some (11#8, 0x33#8, 12#8) := by decide
/-- V48: loaded 0x80, then incremented. -/
theorem test_pop_sp : got (step ((at_ 0 0xF3 [0x46, 0x07]).setMem (((at_ 0 0xF3 [0x46, 0x07]).mem).write 0xF3 0x80)))
    (·.sp) = some 0x81#8 := by decide
/-- V47: x[1] stays 0. -/
theorem test_pop_past_255 : got (step ((at_ 0 255 [0x46, 0x01]).setMem (((at_ 0 255 [0x46, 0x01]).mem).write 255 7)))
    (fun t => (record t, t.reg 1)) = some (some (.addressOutOfRange, 0#8, 0x46#8, 256), 0#8) := by decide
/-- V55: the return address 255 fits. -/
theorem test_call_at_253 : got (step (at_ 253 0xF4 [0x50, 0x00])) (fun t => (t.sp, t.mem.read 0xF3, t.pc)) =
    some (0xF3#8, 255#8, 0#8) := by decide
/-- V53: jumps to the new SP. -/
theorem test_call_sp : got (step (at_ 20 0x80 [0x50, 0x07])) (fun t => (t.sp, t.mem.read 0x7F, t.pc)) =
    some (0x7F#8, 22#8, 0x7F#8) := by decide
/-- V57. -/
theorem test_ret : got (step ((at_ 0 0xF3 [0x11]).setMem (((at_ 0 0xF3 [0x11]).mem).write 0xF3 8)))
    (fun t => (t.pc, t.sp)) = some (8#8, 0xF4#8) := by decide
/-- V58. -/
theorem test_ret_past_255 : got (step (at_ 0 255 [0x11])) (fun t => (record t, t.sp)) =
    some (some (.addressOutOfRange, 0#8, 0x11#8, 256), 255#8) := by decide
/-- V1. -/
theorem test_unknown_opcode : got (step (at_ 0 0xF4 [])) record = some (some (.unknownOpcode, 0#8, 0#8, 0)) := by decide
/-- V4: the operand fetch comes before the decode. -/
theorem test_fetch_before_decode : got (step (at_ 254 0xF4 [0xFF])) record =
    some (some (.addressOutOfRange, 254#8, 0xFF#8, 256)) := by decide

/-! ### The host's side -/

/-- E6. -/
theorem test_load_overflow : boot 0xF4 (List.replicate 257 1) = .overflow 257 (State.create 0xF4) := by
  rw [boot, State.load, if_pos (by rw [List.length_replicate]; decide), List.length_replicate]
/-- R106's example line: 00 82 00 08 00 00 00 00 00 00 00 F4. -/
theorem test_trace_line : (at_ 0 0xF4 [0x82, 0x00, 0x08]).trace.map TraceRecord.line = some
    ['0', '0', ' ', '8', '2', ' ', '0', '0', ' ', '0', '8', ' ', '0', '0', ' ', '0', '0', ' ', '0', '0', ' ', '0', '0', ' ',
     '0', '0', ' ', '0', '0', ' ', '0', '0', ' ', 'F', '4'] := by decide
/-- R63's example: the line 10000010 # LDI is the byte 0x82. -/
theorem test_program_line :
    readLine ['1', '0', '0', '0', '0', '0', '1', '0', ' ', '#', ' ', 'L', 'D', 'I'] = .byte 0x82 := by decide
/-- R61's spelling of LDI R0,8. -/
theorem test_assembly : assembly (.ldi 0 8) = ['L', 'D', 'I', ' ', 'R', '0', ',', '8'] := by decide
/-- E2: the host prints 17. -/
theorem test_printed : printedOutput (State.reset.emit 17) = [['1', '7']] := by decide

/-! ### Witnesses: the hypotheses of each statement are met -/

/-- A machine that HLT has halted at the last address it can. -/
def halted254 : State := { at_ 254 0xF4 [] with mem := [(253, 0x01)], status := .halted }

/-- A RUNNING machine at pc 253 whose three bytes are given. -/
def at253 (sp op a b : Byte) : State := at_ 253 sp [op, a, b]

/-- What a step from `s` gives. -/
def next_ (s : State) : State :=
  match step s with
  | .next t => t
  | .fault _ => s
  | .refused _ => s

theorem witness_DecodeInvertsEncode : decode 0xA0 255 0 = .ok (.add 255 0) := rfl

theorem witness_DecoderComparesWholeOpcode : (0x00#8 ∉ opcodes) ∧ (0x83#8 ∉ opcodes) ∧ (0xFF#8 ∉ opcodes) := by decide

theorem witness_LengthIsTwoHighBitsPlusOne : (0xC0#8).toNat ≥ 192 ∧ (0xFF#8).toNat ≥ 192 := by decide

theorem witness_UnusedCandidateBytesIgnored :
    (decode 0x45 7 255 = .ok (.push 7) ∧ (Instr.push 7).length ≤ 2) ∧
      (decode 0x11 255 255 = .ok .ret ∧ Instr.ret.length = 1) := ⟨⟨rfl, by decide⟩, rfl, rfl⟩

/-- At pc 253 and at pc 0, RUNNING and with another SP: the same three bytes. -/
theorem witness_DecodedFromOpcodeAlone :
    decode 0xA2 0 255 = .ok (.mul 0 255) ∧ decode 0xFF 0 255 = .error (.unknownOpcode 0xFF) ∧
      (at253 0xF4 0x82 7 9).pc.toNat ≤ 253 ∧ (at_ 0 0 [0x82, 7, 9]).pc.toNat ≤ 253 ∧
      (∀ k ≤ 2, (at_ 0 0 [0x82, 7, 9]).mem.read ((at_ 0 0 [0x82, 7, 9]).pc.toNat + k) =
        (at253 0xF4 0x82 7 9).mem.read ((at253 0xF4 0x82 7 9).pc.toNat + k)) :=
  ⟨rfl, rfl, by decide, by decide, by decide⟩

theorem witness_FetchReadsThreeBytes :
    (at253 0xF4 1 0 0).pc.toNat ≤ 253 ∧ 254 ≤ (at_ 254 0xF4 [1]).pc.toNat ∧ (at_ 254 0xF4 [1]).status = .running ∧
      254 ≤ (at_ 255 0xF4 [1]).pc.toNat ∧ (at_ 255 0xF4 [1]).status = .running := by decide

/-- Well formed, and with a register index out of range. -/
theorem witness_StepRunsDecodedInstruction :
    ((at253 0xF4 0x47 7 0).status = .running ∧ (at253 0xF4 0x47 7 0).pc.toNat ≤ 253 ∧
      decode ((at253 0xF4 0x47 7 0).mem.read 253) ((at253 0xF4 0x47 7 0).mem.read 254)
        ((at253 0xF4 0x47 7 0).mem.read 255) = .ok (.prn 7)) ∧
    ((at_ 0 0xF4 [0x47, 8]).status = .running ∧ (at_ 0 0xF4 [0x47, 8]).pc.toNat ≤ 253 ∧
      decode ((at_ 0 0xF4 [0x47, 8]).mem.read 0) ((at_ 0 0xF4 [0x47, 8]).mem.read 1)
        ((at_ 0 0xF4 [0x47, 8]).mem.read 2) = .ok (.prn 8)) :=
  ⟨⟨rfl, by decide, rfl⟩, rfl, by decide, rfl⟩

theorem witness_StoppedMachineChangesNothing :
    halted254.status ≠ .running ∧ (State.reset.takeFault ⟨.unknownOpcode, 0⟩).status ≠ .running := by decide

theorem witness_StatusChangesOnlyAsTabled :
    (step halted254 = .next halted254 ∧ halted254.status ≠ .running) ∧
      (step (at253 0xF4 1 0 0) = .next (next_ (at253 0xF4 1 0 0)) ∧ (at253 0xF4 1 0 0).status = .running) ∧
      (step (at_ 254 0xF4 [1]) = .next (next_ (at_ 254 0xF4 [1])) ∧ (at_ 254 0xF4 [1]).status = .running) :=
  ⟨⟨rfl, by decide⟩, ⟨rfl, rfl⟩, rfl, rfl⟩

theorem witness_PlacedInstructionRunsNext :
    (at253 0xF4 0 0 0).status = .running ∧ (at253 0xF4 0 0 0).pc.toNat ≤ 253 ∧ (at253 0xF4 0 0 0).mem.wf = true := by
  decide

theorem witness_StoreIsSeenByNextFetch :
    (at_ 251 254 [0x45, 7]).status = .running ∧ (at_ 251 254 [0x45, 7]).mem.wf = true ∧
      (7#8).toNat = (7 : RegIdx).val ∧ (at_ 251 254 [0x45, 7]).pc.toNat ≤ 251 ∧
      (at_ 251 254 [0x45, 7]).sp.toNat = (at_ 251 254 [0x45, 7]).pc.toNat + 3 ∧
      fetchInstr (at_ 251 254 [0x45, 7]) = .ok (.push 7) :=
  ⟨rfl, by decide, rfl, by decide, by decide, rfl⟩

theorem witness_FaultsArePrecise :
    ((at_ 0 0xF4 []).status = .running ∧ step (at_ 0 0xF4 []) = .next (next_ (at_ 0 0xF4 [])) ∧
      (next_ (at_ 0 0xF4 [])).status = .faulted) ∧
    (halted254.status ≠ .faulted ∧ exec (.prn 8) halted254 = .next (halted254.takeFault ⟨.addressOutOfRange, 8⟩) ∧
      (halted254.takeFault ⟨.addressOutOfRange, 8⟩).status = .faulted) :=
  ⟨⟨rfl, rfl, by decide⟩, by decide, rfl, rfl⟩

/-- One cycle for each of R69's five places, V4, V3, V10, V11, V8 among them, and one that does not fault. -/
theorem witness_FirstFaultInOrderIsTaken :
    firstRaise (at_ 254 0xF4 [0xFF]) = some ⟨.addressOutOfRange, 256⟩ ∧
      firstRaise (at_ 0 0xF4 [0x02]) = some ⟨.unknownOpcode, 2⟩ ∧
      firstRaise (at253 0xF4 0x82 8 0) = some ⟨.addressOutOfRange, 8⟩ ∧
      firstRaise (at_ 0 0 [0x45, 9]) = some ⟨.addressOutOfRange, 9⟩ ∧
      firstRaise (at_ 0 0 [0x45, 0]) = some ⟨.addressOutOfRange, -1⟩ ∧
      firstRaise (at_ 0 255 [0x46, 0]) = some ⟨.addressOutOfRange, 256⟩ ∧
      firstRaise (at253 0xF4 0x82 0 5) = some ⟨.addressOutOfRange, 256⟩ ∧
      firstRaise (at253 0xF4 0x50 0 0) = none := by decide

theorem witness_UnknownOpcodeIsRaised :
    ((at253 0xF4 0xFF 0 0).status = .running ∧ (at253 0xF4 0xFF 0 0).pc.toNat ≤ 253 ∧
      (at253 0xF4 0xFF 0 0).mem.read 253 ∉ opcodes) ∧
    (step (at253 0xF4 0xFF 0 0) = .next ((at253 0xF4 0xFF 0 0).takeFault ⟨.unknownOpcode, 255⟩)) ∧
    ((at253 0xF4 0 0 0).status = .running ∧ (at253 0xF4 0 0 0).mem.read 253 = 0#8) :=
  ⟨by decide, rfl, by decide⟩

theorem witness_RegisterIndexOutOfRangeFaults :
    (8#8).toNat > 7 ∧ (255#8).toNat > 7 ∧ (7#8).toNat ≤ 7 := by decide

theorem witness_StackDecrementChecked :
    (7#8).toNat ≤ 7 ∧ (at253 0 0x45 7 0).sp = 0#8 ∧
      ((at253 1 0x45 7 0).sp ≠ 0#8 ∧ (at253 1 0x45 7 0).pc.toNat ≤ 253) := by decide

theorem witness_StackIncrementChecked :
    ((7#8).toNat ≤ 7 ∧ (6#8).toNat ≤ 7 ∧ (6#8) ≠ 7#8) ∧ (at253 255 0x46 6 0).pc.toNat ≤ 253 ∧
      (at253 255 0x46 6 0).sp = 255#8 ∧ (at253 254 0x46 6 0).sp ≠ 255#8 ∧
      (at253 255 0x46 7 255).mem.read (at253 255 0x46 7 255).sp.toNat = 255#8 ∧
      (at253 255 0x46 7 254).mem.read (at253 255 0x46 7 254).sp.toNat ≠ 255#8 := by decide

theorem witness_AdvancePastEndFaults : (7#8).toNat ≤ 7 ∧ (at253 0xF4 0x82 7 7).pc = 253#8 := by decide

theorem witness_MemoryReadsLastWrite :
    State.reset.mem.wf = true ∧ memWrite 255 9 State.reset = .ok (State.reset.setMem [(255, 9)]) ∧
      memWrite 0 9 State.reset = .ok (State.reset.setMem [(0, 9)]) := ⟨rfl, rfl, rfl⟩

theorem witness_MemoryAccessChecked :
    ((-1 : Int) < 0 ∨ (255 : Int) < -1) ∧ ((256 : Int) < 0 ∨ (255 : Int) < 256) ∧
      ((0 : Int) ≤ 0 ∧ (0 : Int) ≤ 255) ∧ ((0 : Int) ≤ 255 ∧ (255 : Int) ≤ 255) := by decide

theorem witness_OnlyPushAndCallWriteMemory :
    ((at_ 0 1 [0x45, 7]).mem.wf = true ∧ step (at_ 0 1 [0x45, 7]) = .next (next_ (at_ 0 1 [0x45, 7])) ∧
      (next_ (at_ 0 1 [0x45, 7])).mem.read 0 ≠ (at_ 0 1 [0x45, 7]).mem.read 0) ∧
    ((at_ 0 255 [0x50, 0]).mem.wf = true ∧ step (at_ 0 255 [0x50, 0]) = .next (next_ (at_ 0 255 [0x50, 0])) ∧
      (next_ (at_ 0 255 [0x50, 0])).mem.read 254 ≠ (at_ 0 255 [0x50, 0]).mem.read 254) :=
  ⟨⟨by decide, rfl, by decide⟩, by decide, rfl, by decide⟩

theorem witness_LoadWritesProgramFromZero :
    (List.replicate 256 1#8).length ≤ 256 ∧ ([] : List Byte).length ≤ 256 ∧ 256 < (List.replicate 257 1#8).length := by
  simp only [List.length_replicate, List.length_nil]; decide

/-- LDI, MUL and ADD (also ArithmeticWrapsAndCommutes) complete up to pc 252, R7 named. -/
theorem witness_ThreeByteInstructionsComplete :
    (7#8).toNat = (7 : RegIdx).val ∧ (0#8).toNat = (0 : RegIdx).val ∧ (at_ 252 0xF4 []).pc.toNat ≤ 252 := by decide

/-- PRN, HLT and RET complete up to pc 253, RET with SP up to 254. -/
theorem witness_PrnHltRetComplete :
    (7#8).toNat = (7 : RegIdx).val ∧ (at_ 253 254 []).pc.toNat ≤ 253 ∧ (at_ 253 254 []).sp ≠ 255#8 := by decide

/-- PUSH, CALL complete up to pc 253 from SP 1 upward; PushThenPop up to pc 251. -/
theorem witness_PushCallComplete :
    (7#8).toNat = (7 : RegIdx).val ∧ (at_ 253 1 []).sp ≠ 0#8 ∧ (at_ 253 1 []).pc.toNat ≤ 253 ∧
      (at_ 253 1 []).mem.wf = true ∧ ((at_ 251 1 []).sp ≠ 0#8 ∧ (at_ 251 1 []).pc.toNat ≤ 251 ∧
      (at_ 251 1 []).mem.wf = true) := by decide

/-- At pc 251, the last from which a step runs the RET too, with R7 and with R0; and at 253. -/
theorem witness_PushThenRetJumps :
    ((7#8).toNat = (7 : RegIdx).val ∧ (0#8).toNat = (0 : RegIdx).val) ∧
      ((at_ 251 1 []).sp ≠ 0#8 ∧ (at_ 251 1 []).pc.toNat ≤ 253 ∧ (at_ 251 1 []).mem.wf = true) ∧
      ((at_ 253 1 []).sp ≠ 0#8 ∧ (at_ 253 1 []).pc.toNat ≤ 253 ∧ (at_ 253 1 []).mem.wf = true) := by decide

/-- POP completes into R6 with SP up to 254, and into R7 with a popped byte up to 254. -/
theorem witness_PopLoadsFromStackPointer :
    ((6#8).toNat = (6 : RegIdx).val ∧ (6 : RegIdx) ≠ 7 ∧ (at253 254 0x46 6 0).sp ≠ 255#8) ∧
      ((7#8).toNat = (7 : RegIdx).val ∧ (at253 255 0x46 7 254).mem.read (at253 255 0x46 7 254).sp.toNat ≠ 255#8) ∧
      (at253 255 0x46 7 254).pc.toNat ≤ 253 := by decide

theorem witness_AluSupportsOnlyAdd :
    (at_ 0 0 [0x45, 0]).status = .running ∧ step (at_ 0 0 [0x45, 0]) = .next (next_ (at_ 0 0 [0x45, 0])) ∧
      (next_ (at_ 0 0 [0x45, 0])).status = .faulted ∧
      (next_ (at_ 0 0 [0x45, 0])).fault = some ⟨.addressOutOfRange, 0, 0x45, -1⟩ := ⟨rfl, rfl, by decide, by decide⟩

/-- The state right after a CALL is one from which RET resumes. -/
theorem witness_RetResumesAfterCall :
    ∃ t, (7#8).toNat ≤ 7 ∧ (at_ 253 1 [0x50, 7]).sp ≠ 0#8 ∧ (at_ 253 1 [0x50, 7]).pc.toNat ≤ 253 ∧
      (at_ 253 1 [0x50, 7]).mem.wf = true ∧ exec (.call 7) (at_ 253 1 [0x50, 7]) = .next t ∧ t.sp = t.sp ∧
      t.mem.read t.sp.toNat = t.mem.read t.sp.toNat :=
  ⟨_, by decide, by decide, by decide, by decide, rfl, rfl, rfl⟩

theorem witness_OnlyTabledRegistersAreWritten :
    (∃ t, exec (.ldi 6 9) State.reset = .next t) ∧ (7 : RegIdx) ∉ (Instr.ldi 6 9).writes := ⟨⟨_, rfl⟩, by decide⟩

/-- PUSH R0 reads x[7] and x[0]; x[1] may differ. -/
theorem witness_OnlyTabledRegistersAreRead :
    (∀ j, j ∈ (Instr.push 0).reads → State.reset.reg j =
      ({ State.reset with x := State.reset.x.set 1 9 } : State).reg j) ∧
    (∃ t, exec (.push 0) State.reset = .next t ∧ t.status ≠ .faulted) ∧
    (∃ t, exec (.push 0) { State.reset with x := State.reset.x.set 1 9 } = .next t) ∧
    (7 : RegIdx) ∈ (Instr.push 0).writes :=
  ⟨by decide, ⟨_, rfl, by decide⟩, ⟨_, rfl⟩, by decide⟩

theorem witness_PcChangesOnlyByExecution :
    (step halted254 = .next halted254 ∧ halted254.status ≠ .running) ∧
    (step (at_ 254 0xF4 [1]) = .next (next_ (at_ 254 0xF4 [1])) ∧ (next_ (at_ 254 0xF4 [1])).status = .faulted) ∧
    (step (at253 1 0x50 7 0) = .next (next_ (at253 1 0x50 7 0)) ∧ (at253 1 0x50 7 0).status = .running ∧
      (next_ (at253 1 0x50 7 0)).status ≠ .faulted ∧ fetchInstr (at253 1 0x50 7 0) = .ok (.call 7)) ∧
    (fetchInstr (at253 1 0x11 0 0) = .ok .ret ∧ (next_ (at253 1 0x11 0 0)).status ≠ .faulted) ∧
    (fetchInstr (at253 1 0x47 0 0) = .ok (.prn 0) ∧ (Instr.prn 0).setsPc = false) :=
  ⟨⟨rfl, by decide⟩, ⟨rfl, by decide⟩, ⟨rfl, rfl, by decide, rfl⟩, ⟨rfl, by decide⟩, rfl, rfl⟩

theorem witness_OutputIsWrittenByPrnAndNeverRead :
    (at253 0xF4 0x47 7 0).status = .running ∧ fetchInstr (at253 0xF4 0x47 7 0) = .ok (.prn 7) ∧
      (7#8).toNat = (7 : RegIdx).val ∧ step (at253 0xF4 0x47 7 0) = .next (next_ (at253 0xF4 0x47 7 0)) :=
  ⟨rfl, rfl, rfl, rfl⟩

theorem witness_InvariantHoldsAfterLoad : ∃ s, boot 0xF4 [0x01] = .loaded s := ⟨_, rfl⟩

/-- A HALTED state that meets the invariant, and the step from it. -/
theorem witness_StepKeepsInvariant : Inv halted254 ∧ step halted254 = .next halted254 :=
  ⟨⟨by decide, fun _ => rfl, fun h => absurd h (by decide), fun _ => by decide⟩, rfl⟩

theorem witness_EveryRunMeetsInvariant :
    (∃ s, RunsTo 0xF4 [0x01] 1 s) ∧ (List.replicate 256 1#8).length ≤ 256 := ⟨⟨_, _, rfl, rfl⟩, by rw [List.length_replicate]⟩

theorem witness_EndOfRunIsFinal :
    (∃ s, core.run 1 (at_ 0 0xF4 [0x01]) = .next s ∧ s.status ≠ .running) ∧ EndsNormally 0xF4 [0x01] :=
  ⟨⟨_, rfl, by decide⟩, 1, _, ⟨_, rfl, rfl⟩, by decide⟩

theorem witness_TracePresentsFetchedCycle :
    ((at253 0xF4 1 0 0).status = .running ∧ (at253 0xF4 1 0 0).pc.toNat ≤ 253) ∧
      254 ≤ (at_ 254 0xF4 [1]).pc.toNat ∧ halted254.status ≠ .running := by decide

theorem witness_ExitCodesTellTheEnd :
    Inv ((at_ 0 0xF4 []).takeFault ⟨.unknownOpcode, 0⟩) ∧
      ((at_ 0 0xF4 []).takeFault ⟨.unknownOpcode, 0⟩).status = .faulted ∧ (256 : Nat) < (List.replicate 257 1#8).length :=
  ⟨⟨by decide, fun h => absurd rfl h, fun _ => ⟨_, rfl, rfl, rfl, .inl ⟨rfl, rfl, rfl⟩⟩, fun h => absurd h (by decide)⟩,
    rfl, by rw [List.length_replicate]; decide⟩

end Sys2Proof.Tests
end

section
/-! PROOFS. What an instruction can do, said once for all nine: the raise by which it faults, written with the tables
of raises of Safety.lean, or the state in which it completes. The rules about the whole machine are derived from
this. -/

namespace Sys2Proof

open Machine

/-- An operand byte names a register exactly when it is that register's index (R54). -/
@[simp] theorem mem_regOf {a : Byte} {j : RegIdx} : j ∈ regOf a ↔ j.val = a.toNat := by
  unfold regOf
  split
  · simp [Fin.ext_iff]
  · simp only [List.not_mem_nil, false_iff]
    omega

/-- Two registers named by one operand byte are one register. -/
theorem regIdx_eq_of_operand {a : Byte} {i j : RegIdx} (hi : i.val = a.toNat) (hj : j.val = a.toNat) : i = j :=
  Fin.ext (hi.trans hj.symm)

/-- The sequential advance past 255 as `exec` raises it, at every pc; `advanceRaise` says it of the pcs a cycle
reaches (`pcRaise_eq_advanceRaise`). -/
def pcRaise (i : Instr) (s : State) : Option Raise :=
  if i.setsPc = false ∧ s.pc.toNat + i.length > 255 then some ⟨.addressOutOfRange, s.pc.toNat + i.length⟩
  else none

/-- What `exec` raises, in R69's order: a register index, the stack pointer, the advance. -/
def execRaise (i : Instr) (s : State) : Option Raise :=
  (indexRaise i).or ((stackRaise i s).or (pcRaise i s))

/-- The instruction completes from `s` in the second state, by the pseudocode of its rule (R77 to R90): its register
operands are in range, and SP and pc stay inside 0..255. -/
inductive Completes (s : State) : Instr → State → Prop
  | ldi {a imm p : Byte} {i : RegIdx} (hi : i.val = a.toNat) (hp : p.toNat = s.pc.toNat + 3) :
      Completes s (.ldi a imm) ((s.setReg i imm).setPc p)
  | prn {a p : Byte} {i : RegIdx} (hi : i.val = a.toNat) (hp : p.toNat = s.pc.toNat + 2) :
      Completes s (.prn a) ((s.emit (s.reg i)).setPc p)
  | hlt {p : Byte} (hp : p.toNat = s.pc.toNat + 1) : Completes s .hlt (s.halt.setPc p)
  | mul {a b p : Byte} {i j : RegIdx} (hi : i.val = a.toNat) (hj : j.val = b.toNat)
      (hp : p.toNat = s.pc.toNat + 3) :
      Completes s (.mul a b) ((s.setReg i (productMod256 (s.reg i) (s.reg j))).setPc p)
  | add {a b p : Byte} {i j : RegIdx} (hi : i.val = a.toNat) (hj : j.val = b.toNat)
      (hp : p.toNat = s.pc.toNat + 3) :
      Completes s (.add a b) ((s.setReg i (sumMod256 (s.reg i) (s.reg j))).setPc p)
  | push {a p : Byte} {i : RegIdx} (hi : i.val = a.toNat) (hsp : s.sp ≠ 0#8) (hp : p.toNat = s.pc.toNat + 2) :
      Completes s (.push a) (((s.setSp (s.sp - 1#8)).setMem
        (s.mem.write (s.sp - 1#8).toNat (if i = 7 then s.sp - 1#8 else s.reg i))).setPc p)
  | pop {a p : Byte} {i : RegIdx} (hi : i.val = a.toNat) (hsp : (s.setReg i (s.mem.read s.sp.toNat)).sp ≠ 255#8)
      (hp : p.toNat = s.pc.toNat + 2) :
      Completes s (.pop a) (((s.setReg i (s.mem.read s.sp.toNat)).setSp
        ((s.setReg i (s.mem.read s.sp.toNat)).sp + 1#8)).setPc p)
  | call {a : Byte} {i : RegIdx} (hi : i.val = a.toNat) (hsp : s.sp ≠ 0#8) :
      Completes s (.call a) (((s.setSp (s.sp - 1#8)).setMem
        (s.mem.write (s.sp - 1#8).toNat (s.pc + 2#8))).setPc (if i = 7 then s.sp - 1#8 else s.reg i))
  | ret (hsp : s.sp ≠ 255#8) :
      Completes s .ret ((s.setSp (s.sp + 1#8)).setPc (s.mem.read s.sp.toNat))

/-- The one thing an instruction does: it faults by its first raise, or raises nothing and completes. -/
def FaultsOrCompletes (i : Instr) (s : State) : Prop :=
  (∃ r, execRaise i s = some r ∧ exec i s = .next (s.takeFault r)) ∨
    (execRaise i s = none ∧ ∃ t, Completes s i t ∧ exec i s = .next t)

section Raises

variable {i : Instr} {s : State} {r : Raise} {a b : Byte}

/-- Register operands in range raise no index (R70). -/
theorem indexRaise_eq_none (h : ∀ r ∈ i.regOperands, r.toNat ≤ 7) : indexRaise i = none := by
  have hf : i.regOperands.find? (fun r => decide (r.toNat > 7)) = none :=
    List.find?_eq_none.2 fun r hr => by simpa using h r hr
  simp only [indexRaise, hf]

theorem indexRaise_of_register {k : RegIdx} (h : i.regOperands = [a]) (ha : k.val = a.toNat) :
    indexRaise i = none :=
  indexRaise_eq_none (by simp [h]; omega)

theorem indexRaise_of_registers {k l : RegIdx} (h : i.regOperands = [a, b]) (ha : k.val = a.toNat)
    (hb : l.val = b.toNat) : indexRaise i = none :=
  indexRaise_eq_none (by simp [h]; omega)

/-- A first register operand out of range is the one raised (R70). -/
theorem indexRaise_of_first {l : List Byte} (h : i.regOperands = a :: l) (ha : a.toNat > 7) :
    indexRaise i = some ⟨.addressOutOfRange, a.toNat⟩ := by
  simp [indexRaise, h, ha]

/-- A second register operand out of range is raised where the first is in range (R70). -/
theorem indexRaise_of_second (h : i.regOperands = [a, b]) (ha : a.toNat ≤ 7) (hb : b.toNat > 7) :
    indexRaise i = some ⟨.addressOutOfRange, b.toNat⟩ := by
  have ha' : ¬ a.toNat > 7 := by omega
  simp [indexRaise, h, List.find?, ha', hb]

theorem execRaise_eq_none : execRaise i s = none ↔
    indexRaise i = none ∧ stackRaise i s = none ∧ pcRaise i s = none := by
  simp [execRaise]

/-- At the pcs a cycle reaches, the advance raises the one value 256 (R66, R72). -/
theorem pcRaise_eq_advanceRaise (h : s.pc.toNat ≤ 253) : pcRaise i s = advanceRaise i s := by
  have hlen : i.length ≤ 3 := by cases i <;> simp [Instr.length]
  unfold pcRaise advanceRaise
  split
  next hp =>
    have hv : (s.pc.toNat : Int) + i.length = 256 := by omega
    rw [hv]
  next => rfl

end Raises

/-! ### Each instruction, from its law in Laws/Exec.lean -/

section FaultsOrCompletes

variable {i : Instr} {s : State} {r : Raise}

theorem FaultsOrCompletes.of_indexRaise (h : indexRaise i = some r) (e : exec i s = .next (s.takeFault r)) :
    FaultsOrCompletes i s :=
  .inl ⟨r, by simp [execRaise, h], e⟩

theorem FaultsOrCompletes.of_stackRaise (hi : indexRaise i = none) (h : stackRaise i s = some r)
    (e : exec i s = .next (s.takeFault r)) : FaultsOrCompletes i s :=
  .inl ⟨r, by simp [execRaise, hi, h], e⟩

/-- An instruction whose last statement is the sequential advance: the working copy `w` with the pc after it, or the
raise of the advance. -/
theorem FaultsOrCompletes.of_advance {n : Nat} {w : State} (hi : indexRaise i = none) (hst : stackRaise i s = none)
    (hj : i.setsPc = false) (hn : i.length = n)
    (hc : ∀ p : Byte, p.toNat = s.pc.toNat + n → Completes s i (w.setPc p))
    (h : (s.pc.toNat + n ≤ 255 ∧ ∃ p : Byte, p.toNat = s.pc.toNat + n ∧ exec i s = .next (w.setPc p)) ∨
      (s.pc.toNat + n > 255 ∧ exec i s = .next (s.takeFault ⟨.addressOutOfRange, s.pc.toNat + n⟩))) :
    FaultsOrCompletes i s := by
  subst hn
  rcases h with ⟨hpc, p, hp, e⟩ | ⟨hpc, e⟩
  · have hnone : pcRaise i s = none := if_neg fun ⟨_, h'⟩ => by omega
    exact .inr ⟨execRaise_eq_none.2 ⟨hi, hst, hnone⟩, _, hc p hp, e⟩
  · have hsome : pcRaise i s = some ⟨.addressOutOfRange, s.pc.toNat + i.length⟩ := if_pos ⟨hj, hpc⟩
    exact .inl ⟨_, by simp [execRaise, hi, hst, hsome], e⟩

/-- CALL and RET, which set the pc themselves, raise nothing after the stack pointer's check. -/
theorem FaultsOrCompletes.of_setsPc {t : State} (hi : indexRaise i = none) (hst : stackRaise i s = none)
    (hj : i.setsPc = true) (hc : Completes s i t) (e : exec i s = .next t) : FaultsOrCompletes i s :=
  .inr ⟨execRaise_eq_none.2 ⟨hi, hst, if_neg fun ⟨h, _⟩ => by simp [hj] at h⟩, t, hc, e⟩

end FaultsOrCompletes

theorem ldi_faultsOrCompletes (a imm : Byte) (s : State) : FaultsOrCompletes (.ldi a imm) s := by
  rcases execLdi_cases a imm s with ⟨ha, e⟩ | ⟨i, hi, h⟩
  · exact .of_indexRaise (indexRaise_of_first rfl ha) e
  · exact .of_advance (indexRaise_of_register rfl hi) rfl rfl rfl (fun _ => .ldi hi) h

theorem prn_faultsOrCompletes (a : Byte) (s : State) : FaultsOrCompletes (.prn a) s := by
  rcases execPrn_cases a s with ⟨ha, e⟩ | ⟨i, hi, h⟩
  · exact .of_indexRaise (indexRaise_of_first rfl ha) e
  · exact .of_advance (indexRaise_of_register rfl hi) rfl rfl rfl (fun _ => .prn hi) h

theorem hlt_faultsOrCompletes (s : State) : FaultsOrCompletes .hlt s :=
  .of_advance rfl rfl rfl rfl (fun _ => .hlt) (execHlt_cases s)

theorem mul_faultsOrCompletes (a b : Byte) (s : State) : FaultsOrCompletes (.mul a b) s := by
  rcases execMul_cases a b s with ⟨ha, e⟩ | ⟨ha, hb, e⟩ | ⟨i, j, hi, hj, h⟩
  · exact .of_indexRaise (indexRaise_of_first rfl ha) e
  · exact .of_indexRaise (indexRaise_of_second rfl ha hb) e
  · exact .of_advance (indexRaise_of_registers rfl hi hj) rfl rfl rfl (fun _ => .mul hi hj) h

theorem add_faultsOrCompletes (a b : Byte) (s : State) : FaultsOrCompletes (.add a b) s := by
  rcases execAdd_cases a b s with ⟨ha, e⟩ | ⟨ha, hb, e⟩ | ⟨i, j, hi, hj, h⟩
  · exact .of_indexRaise (indexRaise_of_first rfl ha) e
  · exact .of_indexRaise (indexRaise_of_second rfl ha hb) e
  · exact .of_advance (indexRaise_of_registers rfl hi hj) rfl rfl rfl (fun _ => .add hi hj) h

theorem push_faultsOrCompletes (a : Byte) (s : State) : FaultsOrCompletes (.push a) s := by
  rcases execPush_cases a s with ⟨ha, e⟩ | ⟨i, hi, h⟩
  · exact .of_indexRaise (indexRaise_of_first rfl ha) e
  have hidx : indexRaise (.push a) = none := indexRaise_of_register rfl hi
  rcases h with ⟨hsp, e⟩ | ⟨hsp, h⟩ | ⟨hsp, h⟩
  · exact .of_stackRaise hidx (if_pos hsp) e
  · exact .of_advance hidx (if_neg hsp) rfl rfl (fun _ => .push hi hsp) (.inl h)
  · exact .of_advance hidx (if_neg hsp) rfl rfl (fun _ => .push hi hsp) (.inr h)

/-- The byte whose increment POP checks: SP after the popped byte has gone to register `i` (R88). -/
theorem stackRaise_pop {a : Byte} {i : RegIdx} (s : State) (hi : i.val = a.toNat) :
    stackRaise (.pop a) s =
      if (s.setReg i (s.mem.read s.sp.toNat)).sp = 255#8 then some ⟨.addressOutOfRange, 256⟩ else none := by
  have ha : a = 7#8 ↔ i = 7 := by
    rw [Fin.ext_iff, hi, ← BitVec.toNat_inj]
    rfl
  simp only [stackRaise, State.sp_setReg, ha]

theorem pop_faultsOrCompletes (a : Byte) (s : State) : FaultsOrCompletes (.pop a) s := by
  rcases execPop_cases a s with ⟨ha, e⟩ | ⟨i, _, hi, rfl, h⟩
  · exact .of_indexRaise (indexRaise_of_first rfl ha) e
  have hidx : indexRaise (.pop a) = none := indexRaise_of_register rfl hi
  have hst := stackRaise_pop s hi
  rcases h with ⟨hsp, e⟩ | ⟨hsp, h⟩ | ⟨hsp, h⟩
  · exact .of_stackRaise hidx (hst.trans (if_pos hsp)) e
  · exact .of_advance hidx (hst.trans (if_neg hsp)) rfl rfl (fun _ => .pop hi hsp) (.inl h)
  · exact .of_advance hidx (hst.trans (if_neg hsp)) rfl rfl (fun _ => .pop hi hsp) (.inr h)

theorem call_faultsOrCompletes (a : Byte) (s : State) : FaultsOrCompletes (.call a) s := by
  rcases execCall_cases a s with ⟨ha, e⟩ | ⟨i, hi, h⟩
  · exact .of_indexRaise (indexRaise_of_first rfl ha) e
  have hidx : indexRaise (.call a) = none := indexRaise_of_register rfl hi
  rcases h with ⟨hsp, e⟩ | ⟨hsp, e⟩
  · exact .of_stackRaise hidx (if_pos hsp) e
  · exact .of_setsPc hidx (if_neg hsp) rfl (.call hi hsp) e

theorem ret_faultsOrCompletes (s : State) : FaultsOrCompletes .ret s := by
  rcases execRet_cases s with ⟨hsp, e⟩ | ⟨hsp, e⟩
  · exact .of_stackRaise rfl (if_pos hsp) e
  · exact .of_setsPc rfl (if_neg hsp) rfl (.ret hsp) e

/-- Every instruction, whole: it takes the fault of its first raise, or raises nothing and completes. -/
theorem exec_faultsOrCompletes : (i : Instr) → (s : State) → FaultsOrCompletes i s
  | .ldi a imm => ldi_faultsOrCompletes a imm
  | .prn a => prn_faultsOrCompletes a
  | .hlt => hlt_faultsOrCompletes
  | .mul a b => mul_faultsOrCompletes a b
  | .add a b => add_faultsOrCompletes a b
  | .push a => push_faultsOrCompletes a
  | .pop a => pop_faultsOrCompletes a
  | .call a => call_faultsOrCompletes a
  | .ret => ret_faultsOrCompletes

/-- An instruction read backward from its next state. -/
theorem exec_eq_next {i : Instr} {s t : State} (h : exec i s = .next t) :
    (∃ r, execRaise i s = some r ∧ t = s.takeFault r) ∨ (execRaise i s = none ∧ Completes s i t) := by
  rcases exec_faultsOrCompletes i s with ⟨r, hr, e⟩ | ⟨hr, t', hc, e⟩ <;> cases e.symm.trans h
  · exact .inl ⟨r, hr, rfl⟩
  · exact .inr ⟨hr, hc⟩

end Sys2Proof
end

section
/-! PROOFS. A whole step: the state itself, the cycle's first raise in R69's order, or the fetched instruction
completed; and which fault records that leaves. -/

namespace Sys2Proof

open Machine

section Step

variable {s t : State} {i : Instr} {r : Raise}

/-- A cycle that fetches an instruction stands at a pc of at most 253, and the three bytes there decode to it (R66). -/
theorem fetchInstr_eq_ok (h : fetchInstr s = .ok i) : s.pc.toNat ≤ 253 ∧
    decode (s.mem.read s.pc.toNat) (s.mem.read (s.pc.toNat + 1)) (s.mem.read (s.pc.toNat + 2)) = .ok i := by
  rcases fetchInstr_cases s with ⟨_, e⟩ | ⟨hpc, i', hd, e⟩ | ⟨_, _, e⟩ <;> rw [e] at h <;> cases h
  exact ⟨hpc, hd⟩

theorem firstRaise_of_fetched (h : fetchInstr s = .ok i) : firstRaise s = execRaise i s := by
  obtain ⟨hpc, hd⟩ := fetchInstr_eq_ok h
  have hlow : ¬ s.pc.toNat ≥ 254 := by omega
  simp only [firstRaise, hlow, if_false, hd, execRaise, pcRaise_eq_advanceRaise hpc]

theorem firstRaise_of_fetch_raise (h : fetchInstr s = .error r) : firstRaise s = some r := by
  rcases fetchInstr_cases s with ⟨hpc, e⟩ | ⟨_, i', _, e⟩ | ⟨hpc, hd, e⟩ <;> rw [e] at h <;> cases h
  · exact if_pos hpc
  · have hlow : ¬ s.pc.toNat ≥ 254 := by omega
    simp only [firstRaise, hlow, if_false, hd]

/-- A step, whole, in the spec's terms: nothing outside RUNNING; in RUNNING the cycle's first raise (R69), or, where
there is none, the fetched instruction completes. -/
theorem step_faultsOrCompletes (s : State) :
    (s.status ≠ .running ∧ step s = .next s) ∨
      (s.status = .running ∧ ∃ r, firstRaise s = some r ∧ step s = .next (s.takeFault r)) ∨
      (s.status = .running ∧ firstRaise s = none ∧
        ∃ i t, fetchInstr s = .ok i ∧ Completes s i t ∧ step s = .next t) := by
  rcases step_cases s with stopped | ⟨hr, r, hf, e⟩ | ⟨hr, i, hf, e⟩
  · exact .inl stopped
  · exact .inr (.inl ⟨hr, r, firstRaise_of_fetch_raise hf, e⟩)
  · rw [firstRaise_of_fetched hf, e]
    rcases exec_faultsOrCompletes i s with ⟨r, hraise, e'⟩ | ⟨hraise, t, hc, e'⟩
    · exact .inr (.inl ⟨hr, r, hraise, e'⟩)
    · exact .inr (.inr ⟨hr, hraise, i, t, hf, hc, e'⟩)

theorem step_of_stopped (h : s.status ≠ .running) : step s = .next s := by
  rcases step_cases s with ⟨_, e⟩ | ⟨hr, _⟩ | ⟨hr, _⟩
  · exact e
  · exact absurd hr h
  · exact absurd hr h

theorem step_of_firstRaise (hr : s.status = .running) (h : firstRaise s = some r) :
    step s = .next (s.takeFault r) := by
  rcases step_faultsOrCompletes s with ⟨hr', _⟩ | ⟨_, r', hraise, e⟩ | ⟨_, hnone, _⟩
  · exact absurd hr hr'
  · cases h.symm.trans hraise
    exact e
  · cases h.symm.trans hnone

theorem step_of_fetched (hr : s.status = .running) (hf : fetchInstr s = .ok i) : step s = exec i s := by
  rcases step_cases s with ⟨hr', _⟩ | ⟨_, r', hf', _⟩ | ⟨_, i', hf', e⟩
  · exact absurd hr hr'
  · cases hf.symm.trans hf'
  · cases hf.symm.trans hf'
    exact e

/-- A step read backward from its next state. -/
theorem step_eq_next (h : step s = .next t) :
    (s.status ≠ .running ∧ t = s) ∨
      (s.status = .running ∧ ∃ r, firstRaise s = some r ∧ t = s.takeFault r) ∨
      (s.status = .running ∧ firstRaise s = none ∧ ∃ i, fetchInstr s = .ok i ∧ Completes s i t) := by
  rcases step_faultsOrCompletes s with ⟨hr, e⟩ | ⟨hr, r, hraise, e⟩ | ⟨hr, hraise, i, t', hf, hc, e⟩ <;>
    cases e.symm.trans h
  · exact .inl ⟨hr, rfl⟩
  · exact .inr (.inl ⟨hr, r, hraise, rfl⟩)
  · exact .inr (.inr ⟨hr, hraise, i, hf, hc⟩)

end Step

/-! ### What a fault record can say -/

/-- The raises of R95: an address of -1 or 256, or a register index of 8 to 255. -/
def AddressRaise (r : Raise) : Prop :=
  r.cause = .addressOutOfRange ∧ (r.value = -1 ∨ (8 ≤ r.value ∧ r.value ≤ 256))

section RecordOk

variable {i : Instr} {s : State} {r : Raise}

theorem indexRaise_address (h : indexRaise i = some r) : AddressRaise r := by
  unfold indexRaise at h
  split at h
  next a ha =>
    have hbad : a.toNat > 7 := by simpa using List.find?_some ha
    cases h
    exact ⟨rfl, .inr (by dsimp only; omega)⟩
  next => cases h

theorem stackRaise_address (h : stackRaise i s = some r) : AddressRaise r := by
  cases i with
  | ldi | prn | hlt | mul | add => cases h
  | push | pop | call | ret =>
    obtain ⟨_, e⟩ := Option.ite_none_right_eq_some.1 h
    cases e
    simp [AddressRaise]

theorem advanceRaise_address (h : advanceRaise i s = some r) : AddressRaise r := by
  obtain ⟨_, e⟩ := Option.ite_none_right_eq_some.1 h
  cases e
  simp [AddressRaise]

/-- Whether a byte is an opcode does not depend on the operand bytes (R57, R60). -/
theorem decode_eq_error {op a b : Byte} {d : DecodeError} (h : decode op a b = .error d) (a' b' : Byte) :
    decode op a' b' = .error (.unknownOpcode op) := by
  rcases decode_cases op a' b' with ⟨i, _, rfl⟩ | e
  · cases i <;> cases h
  · exact e

/-- The record of a cycle's first raise is one this hardware can write (R95, R96). -/
theorem firstRaise_recordOk (h : firstRaise s = some r) :
    RecordOk (s.takeFault r) ⟨r.cause, s.pc, s.mem.read s.pc.toNat, r.value⟩ := by
  refine ⟨rfl, rfl, ?_⟩
  unfold firstRaise at h
  split at h
  · cases h
    simp
  split at h
  next d hd =>
    cases h
    exact .inl ⟨rfl, rfl, decode_eq_error hd _ _⟩
  next i _ =>
    refine .inr ?_
    rcases Option.or_eq_some_iff.1 h with h | ⟨_, h⟩
    · exact indexRaise_address h
    · rcases Option.or_eq_some_iff.1 h with h | ⟨_, h⟩
      · exact stackRaise_address h
      · exact advanceRaise_address h

end RecordOk

end Sys2Proof
end

section
/-! PROOFS. What a completed instruction does to each part of the state, and what its effect depends on. -/

namespace Sys2Proof

open Machine

namespace Completes

variable {s t : State} {i : Instr}

/-- A completed instruction leaves the status as it was, or is HLT and halts (R64, R79). -/
theorem status_cases (h : Completes s i t) : t.status = s.status ∨ (i = .hlt ∧ t.status = .halted) := by
  cases h with
  | hlt => exact .inr ⟨rfl, rfl⟩
  | _ => exact .inl rfl

theorem fault_eq (h : Completes s i t) : t.fault = s.fault := by
  cases h <;> rfl

/-- A completed instruction does not enter FAULTED (R64). -/
theorem status_ne_faulted (h : Completes s i t) (hr : s.status = .running) : t.status ≠ .faulted := by
  rcases h.status_cases with e | ⟨_, e⟩ <;> simp [e, hr]

/-- The memory after a completed instruction is the one before, or that with one byte written (R32, R39). -/
theorem mem_cases (h : Completes s i t) : t.mem = s.mem ∨ ∃ a v : Byte, t.mem = s.mem.write a.toNat v := by
  cases h with
  | push | call => exact .inr ⟨_, _, rfl⟩
  | _ => exact .inl rfl

theorem mem_wf (h : Completes s i t) (hwf : s.mem.wf = true) : t.mem.wf = true := by
  rcases h.mem_cases with e | ⟨a, v, e⟩ <;> rw [e]
  · exact hwf
  · exact Memory.write_wf hwf v a.isLt

/-- An instruction that does not set the pc advances it by its length (R72). -/
theorem pc_advance (h : Completes s i t) (hj : i.setsPc = false) : t.pc.toNat = s.pc.toNat + i.length := by
  cases h with
  | call | ret => cases hj
  | ldi _ hp | prn _ hp | hlt hp | mul _ _ hp | add _ _ hp | push _ _ hp | pop _ _ hp => exact hp

/-- CALL jumps to its register as it is after the decrement of SP (R73, R89). -/
theorem pc_call {a : Byte} {k : RegIdx} (h : Completes s (.call a) t) (hk : a.toNat = k.val) :
    t.pc = if k = 7 then s.sp - 1#8 else s.reg k := by
  cases h with
  | call hi =>
    cases regIdx_eq_of_operand hi hk.symm
    rfl

/-- RET jumps to the byte at SP (R73, R90). -/
theorem pc_ret (h : Completes s .ret t) : t.pc = s.mem.read s.sp.toNat := by
  cases h
  rfl

/-- A completed instruction keeps every register outside R15's writes column. -/
theorem reg_eq_of_not_mem_writes (h : Completes s i t) {j : RegIdx} (hj : j ∉ i.writes) : t.reg j = s.reg j := by
  cases h with
  | ldi hi | mul hi | add hi =>
    have hne : j ≠ _ := fun e => hj (mem_regOf.2 (e ▸ hi))
    simp [hne]
  | prn | hlt => rfl
  | push | call | ret =>
    have hne : j ≠ 7 := fun e => hj (by simp [Instr.writes, e])
    simp [hne]
  | pop hi =>
    simp only [Instr.writes, List.mem_append, mem_regOf, List.mem_singleton, not_or] at hj
    have hne : j ≠ _ := fun e => hj.1 (e ▸ hi)
    simp [hj.2, hne]

/-- A completed instruction leaves the output as it was, or is a PRN and appends its register (R26, R78). -/
theorem out_cases (h : Completes s i t) :
    t.out = s.out ∨ ∃ (a : Byte) (k : RegIdx), i = .prn a ∧ a.toNat = k.val ∧ t.out = s.out ++ [s.reg k] := by
  cases h with
  | prn hi => exact .inr ⟨_, _, rfl, hi.symm, rfl⟩
  | _ => exact .inl rfl

theorem out_prn {a : Byte} {k : RegIdx} (h : Completes s (.prn a) t) (hk : a.toNat = k.val) :
    t.out = s.out ++ [s.reg k] := by
  cases h with
  | prn hi =>
    cases regIdx_eq_of_operand hi hk.symm
    rfl

end Completes

/-! ### What an instruction's effect depends on -/

/-- Two states alike in all that instruction `i` may read: pc, memory, status, fault, and R15's reads column. -/
structure SameInputs (i : Instr) (s s' : State) : Prop where
  pc : s'.pc = s.pc
  mem : s'.mem = s.mem
  status : s'.status = s.status
  fault : s'.fault = s.fault
  reg : ∀ j ∈ i.reads, s'.reg j = s.reg j

/-- Two states alike in all that instruction `i` may change, but for the output: pc, memory, status, fault, and R15's
writes column. -/
structure SameResults (i : Instr) (t t' : State) : Prop where
  pc : t'.pc = t.pc
  mem : t'.mem = t.mem
  status : t'.status = t.status
  fault : t'.fault = t.fault
  reg : ∀ j ∈ i.writes, t'.reg j = t.reg j

section SameInputs

variable {i : Instr} {s s' t t' : State}

theorem SameInputs.stackRaise_eq (h : SameInputs i s s') : stackRaise i s' = stackRaise i s := by
  cases i with
  | ldi | prn | hlt | mul | add => rfl
  | push | pop | call | ret =>
    have hsp : s'.sp = s.sp := h.reg 7 (by simp [Instr.reads])
    simp only [stackRaise, hsp, h.mem]

theorem SameInputs.execRaise_eq (h : SameInputs i s s') : execRaise i s' = execRaise i s := by
  simp only [execRaise, h.stackRaise_eq, pcRaise, h.pc]

/-- The pc after a sequential advance depends on the pc before it and the length (R72). -/
theorem advancedPc_unique {p p' q q' : Byte} {n : Nat} (h : q' = q) (hp : p.toNat = q.toNat + n)
    (hp' : p'.toNat = q'.toNat + n) : p' = p :=
  BitVec.eq_of_toNat_eq (hp'.trans (h ▸ hp.symm))

/-- The effect of a completed instruction depends on nothing but its inputs. -/
theorem SameInputs.sameResults (h : SameInputs i s s') (hc : Completes s i t) (hc' : Completes s' i t') :
    SameResults i t t' := by
  obtain ⟨hpc, hmem, hstatus, hfault, hreg⟩ := h
  cases hc with
  | ldi hi hp =>
    cases hc' with
    | ldi hi' hp' =>
      cases regIdx_eq_of_operand hi hi'
      refine ⟨advancedPc_unique hpc hp hp', hmem, hstatus, hfault, fun j hj => ?_⟩
      cases regIdx_eq_of_operand hi (mem_regOf.1 hj)
      simp
  | prn hi hp =>
    cases hc' with
    | prn hi' hp' => exact ⟨advancedPc_unique hpc hp hp', hmem, hstatus, hfault, fun j hj => by cases hj⟩
  | hlt hp =>
    cases hc' with
    | hlt hp' => exact ⟨advancedPc_unique hpc hp hp', hmem, rfl, hfault, fun j hj => by cases hj⟩
  | mul hi hk hp | add hi hk hp =>
    cases hc'
    next hp' hi' hk' =>
      cases regIdx_eq_of_operand hi hi'
      cases regIdx_eq_of_operand hk hk'
      refine ⟨advancedPc_unique hpc hp hp', hmem, hstatus, hfault, fun j hj => ?_⟩
      cases regIdx_eq_of_operand hi (mem_regOf.1 hj)
      simp [hreg _ (List.mem_append_left _ (mem_regOf.2 hi)), hreg _ (List.mem_append_right _ (mem_regOf.2 hk))]
  | push hi _ hp =>
    cases hc' with
    | push hi' _ hp' =>
      cases regIdx_eq_of_operand hi hi'
      have hsp : s'.sp = s.sp := hreg 7 List.mem_cons_self
      have hx := hreg _ (List.mem_cons_of_mem _ (mem_regOf.2 hi))
      refine ⟨advancedPc_unique hpc hp hp', by simp [hmem, hsp, hx], hstatus, hfault, fun j hj => ?_⟩
      cases List.mem_singleton.1 hj
      simp [hsp]
  | pop hi _ hp =>
    cases hc' with
    | pop hi' _ hp' =>
      cases regIdx_eq_of_operand hi hi'
      have hsp : s'.sp = s.sp := hreg 7 List.mem_cons_self
      refine ⟨advancedPc_unique hpc hp hp', hmem, hstatus, hfault, fun j hj => ?_⟩
      rcases List.mem_append.1 hj with hj | hj
      · cases regIdx_eq_of_operand hi (mem_regOf.1 hj)
        simp [hmem, hsp]
      · cases List.mem_singleton.1 hj
        simp [hmem, hsp]
  | call hi =>
    cases hc' with
    | call hi' =>
      cases regIdx_eq_of_operand hi hi'
      have hsp : s'.sp = s.sp := hreg 7 List.mem_cons_self
      have hx := hreg _ (List.mem_cons_of_mem _ (mem_regOf.2 hi))
      refine ⟨by simp [hsp, hx], by simp [hmem, hsp, hpc], hstatus, hfault, fun j hj => ?_⟩
      cases List.mem_singleton.1 hj
      simp [hsp]
  | ret =>
    cases hc' with
    | ret =>
      have hsp : s'.sp = s.sp := hreg 7 List.mem_cons_self
      refine ⟨by simp [hmem, hsp], hmem, hstatus, hfault, fun j hj => ?_⟩
      cases List.mem_singleton.1 hj
      simp [hsp]

/-- What a completed instruction appends to the output depends on nothing but its inputs. -/
theorem SameInputs.out_eq (h : SameInputs i s s') (hout : s'.out = s.out) (hc : Completes s i t)
    (hc' : Completes s' i t') : t'.out = t.out := by
  cases hc with
  | prn hi =>
    have hx := h.reg _ (mem_regOf.2 hi)
    rw [hc'.out_prn hi.symm, hout, hx]
    rfl
  | _ =>
    cases hc'
    exact hout

/-- From states with the same inputs an instruction takes the same fault in both, or completes in both. -/
theorem SameInputs.exec_cases (h : SameInputs i s s') (e : exec i s = .next t) (e' : exec i s' = .next t') :
    (∃ r, t = s.takeFault r ∧ t' = s'.takeFault r) ∨ (Completes s i t ∧ Completes s' i t') := by
  rcases exec_eq_next e with ⟨r, hr, ht⟩ | ⟨hr, hc⟩ <;>
    rcases exec_eq_next e' with ⟨r', hr', ht'⟩ | ⟨hr', hc'⟩ <;> rw [h.execRaise_eq, hr] at hr' <;> cases hr'
  · exact .inl ⟨r, ht, ht'⟩
  · exact .inr ⟨hc, hc'⟩

end SameInputs

end Sys2Proof
end

section
/-! PROOFS. The statements about the state: the invariant, the registers, the program counter, the output. -/

namespace Sys2Proof

open Machine

/-! ### The invariant -/

/-- Taking a cycle's first raise keeps the invariant. -/
theorem Inv.takeFault {s : State} {r : Raise} (h : Inv s) (hr : firstRaise s = some r) : Inv (s.takeFault r) where
  mem_wf := h.mem_wf
  no_fault := fun hs => absurd rfl hs
  fault_record := fun _ => ⟨_, rfl, firstRaise_recordOk hr⟩
  halted_after_hlt := fun hs => by cases hs

/-- An HLT fetched and completed leaves the pc one past its own byte (R79). -/
theorem Completes.halted_after_hlt {s t : State} (hf : fetchInstr s = .ok .hlt) (hc : Completes s .hlt t) :
    1 ≤ t.pc.toNat ∧ t.pc.toNat ≤ 254 ∧ t.mem.read (t.pc.toNat - 1) = 0x01#8 := by
  obtain ⟨hpc, hd⟩ := fetchInstr_eq_ok hf
  have hop : s.mem.read s.pc.toNat = 0x01#8 := by simpa using decode_eq_ok hd
  have hpc' : t.pc.toNat = s.pc.toNat + 1 := hc.pc_advance rfl
  cases hc
  refine ⟨by omega, by omega, ?_⟩
  rw [hpc', Nat.add_sub_cancel]
  exact hop

/-- Completing the fetched instruction keeps the invariant. -/
theorem Inv.completes {s t : State} {i : Instr} (h : Inv s) (hr : s.status = .running)
    (hf : fetchInstr s = .ok i) (hc : Completes s i t) : Inv t where
  mem_wf := hc.mem_wf h.mem_wf
  no_fault := fun _ => hc.fault_eq.trans (h.no_fault (by simp [hr]))
  fault_record := fun hs => absurd hs (hc.status_ne_faulted hr)
  halted_after_hlt := fun hs => by
    rcases hc.status_cases with e | ⟨rfl, _⟩
    · simp [hs, hr] at e
    · exact hc.halted_after_hlt hf

/-- Settles O45: a step changes nothing, takes the cycle's first raise, or completes the fetched instruction, and each
of these keeps the invariant. -/
theorem stepKeepsInvariant : Obligations.StepKeepsInvariant := by
  unfold Obligations.StepKeepsInvariant
  intro s t h e
  rcases step_eq_next e with ⟨_, rfl⟩ | ⟨_, r, hraise, rfl⟩ | ⟨hr, _, i, hf, hc⟩
  · exact h
  · exact h.takeFault hraise
  · exact h.completes hr hf hc

/-! ### Registers, program counter and output -/

/-- Settles O39: a fault keeps every register, and a completed instruction those outside its writes column. -/
theorem onlyTabledRegistersAreWritten : Obligations.OnlyTabledRegistersAreWritten := by
  unfold Obligations.OnlyTabledRegistersAreWritten
  intro i s t e j hj
  rcases exec_eq_next e with ⟨r, _, rfl⟩ | ⟨_, hc⟩
  · rfl
  · exact hc.reg_eq_of_not_mem_writes hj

/-- Settles O40: the two states have the same inputs, so both take the same fault or both complete, with the same
results. -/
theorem onlyTabledRegistersAreRead : Obligations.OnlyTabledRegistersAreRead := by
  unfold Obligations.OnlyTabledRegistersAreRead
  intro i s t t' x' hreads e e'
  have hin : SameInputs i s { s with x := x' } := ⟨rfl, rfl, rfl, rfl, fun j hj => (hreads j hj).symm⟩
  rcases hin.exec_cases e e' with ⟨r, rfl, rfl⟩ | ⟨hc, hc'⟩
  · exact ⟨rfl, rfl, rfl, rfl, rfl, fun hs => absurd rfl hs⟩
  · obtain ⟨hpc, hmem, hstatus, hfault, hreg⟩ := hin.sameResults hc hc'
    exact ⟨hpc.symm, hmem.symm, hstatus.symm, hfault.symm, (hin.out_eq rfl hc hc').symm,
      fun _ j hj => (hreg j hj).symm⟩

/-- Settles O41: of the three things a step does, only completing the fetched instruction sets the pc. -/
theorem pcChangesOnlyByExecution : Obligations.PcChangesOnlyByExecution := by
  unfold Obligations.PcChangesOnlyByExecution
  intro s t e
  rcases step_eq_next e with ⟨hr, rfl⟩ | ⟨hr, r, _, rfl⟩ | ⟨hr, _, i, hf, hc⟩
  · exact ⟨fun _ => rfl, fun _ => rfl, fun h => absurd h hr⟩
  · exact ⟨fun _ => rfl, fun _ => rfl, fun _ h => absurd rfl h⟩
  · refine ⟨fun h => absurd hr h, fun h => absurd h (hc.status_ne_faulted hr), fun _ _ =>
      ⟨i, hf, hc.pc_advance, ?_, ?_⟩⟩
    · rintro a k rfl hk
      exact hc.pc_call hk
    · rintro rfl
      exact hc.pc_ret

/-- A PRN of a register, once fetched, raises nothing: the fetch has left room for its advance (R66, R78). -/
theorem execRaise_prn_eq_none {s : State} {a : Byte} {k : RegIdx} (hk : a.toNat = k.val)
    (hf : fetchInstr s = .ok (.prn a)) : execRaise (.prn a) s = none := by
  have hpc := (fetchInstr_eq_ok hf).1
  exact execRaise_eq_none.2 ⟨indexRaise_of_register rfl hk.symm, rfl, if_neg fun ⟨_, h⟩ => by
    simp only [Instr.length] at h; omega⟩

/-- A step either leaves the output or is a PRN that appends its register (R26, R78). -/
theorem step_out_cases {s t : State} (e : step s = .next t) :
    t.out = s.out ∨ ∃ (a : Byte) (k : RegIdx), fetchInstr s = .ok (.prn a) ∧ a.toNat = k.val ∧
      t.out = s.out ++ [s.reg k] := by
  rcases step_eq_next e with ⟨_, rfl⟩ | ⟨_, r, _, rfl⟩ | ⟨_, _, i, hf, hc⟩
  · exact .inl rfl
  · exact .inl rfl
  · rcases hc.out_cases with h | ⟨a, k, rfl, hk, h⟩
    · exact .inl h
    · exact .inr ⟨a, k, hf, hk, h⟩

theorem step_prn_out {s t : State} {a : Byte} {k : RegIdx} (hr : s.status = .running)
    (hf : fetchInstr s = .ok (.prn a)) (hk : a.toNat = k.val) (e : step s = .next t) :
    t.out = s.out ++ [s.reg k] := by
  have hnone := execRaise_prn_eq_none hk hf
  rcases step_eq_next e with ⟨h, _⟩ | ⟨_, r, hraise, _⟩ | ⟨_, _, i, hf', hc⟩
  · exact absurd hr h
  · rw [firstRaise_of_fetched hf, hnone] at hraise
    cases hraise
  · cases hf.symm.trans hf'
    exact hc.out_prn hk

/-- An instruction that completes from states with the same inputs and the same registers leaves the same registers. -/
theorem SameInputs.x_eq {i : Instr} {s s' t t' : State} (h : SameInputs i s s') (hx : s'.x = s.x)
    (hc : Completes s i t) (hc' : Completes s' i t') : t'.x = t.x := by
  refine State.x_ext fun j => ?_
  by_cases hj : j ∈ i.writes
  · exact (h.sameResults hc hc').reg j hj
  · rw [hc.reg_eq_of_not_mem_writes hj, hc'.reg_eq_of_not_mem_writes hj]
    simp only [State.reg, hx]

/-- A step from the state with another output stream differs in the output alone (R26). -/
theorem step_out_irrelevant {s t : State} (o : List Byte) (e : step s = .next t) :
    ∃ t', step { s with out := o } = .next t' ∧ t'.x = t.x ∧ t'.pc = t.pc ∧ t'.mem = t.mem ∧
      t'.status = t.status ∧ t'.fault = t.fault := by
  rcases step_eq_next e with ⟨hr, rfl⟩ | ⟨hr, r, hraise, rfl⟩ | ⟨hr, hnone, i, hf, hc⟩
  · exact ⟨_, step_of_stopped hr, rfl, rfl, rfl, rfl, rfl⟩
  · exact ⟨_, step_of_firstRaise hr hraise, rfl, rfl, rfl, rfl, rfl⟩
  · have hin : SameInputs i s { s with out := o } := ⟨rfl, rfl, rfl, rfl, fun _ _ => rfl⟩
    rcases exec_faultsOrCompletes i { s with out := o } with ⟨r, hraise, _⟩ | ⟨_, t', hc', e'⟩
    · rw [hin.execRaise_eq, ← firstRaise_of_fetched hf, hnone] at hraise
      cases hraise
    · obtain ⟨hpc, hmem, hstatus, hfault, _⟩ := hin.sameResults hc hc'
      exact ⟨t', (step_of_fetched (s := { s with out := o }) hr hf).trans e', hin.x_eq rfl hc hc', hpc, hmem, hstatus,
        hfault⟩

/-- Settles O42: the output is empty at creation, a step appends to it as PRN of a register and not otherwise, and no
step depends on it. -/
theorem outputIsWrittenByPrnAndNeverRead : Obligations.OutputIsWrittenByPrnAndNeverRead := by
  unfold Obligations.OutputIsWrittenByPrnAndNeverRead
  exact ⟨fun _ => rfl, fun _ _ => step_out_cases, fun _ _ _ _ => step_prn_out, fun _ _ => step_out_irrelevant⟩

end Sys2Proof
end

section
/-! PROOFS. The rules about memory: a checked access, whole; the fetch as three reads; the one byte a completed
instruction writes; the load operation, whole. The statements about memory are settled from them. -/

namespace Sys2Proof

open Machine

/-! ### Checked accesses -/

/-- An address lies outside 0..255 or is one of the memory's 256 (R31, R36). -/
theorem address_cases (addr : Int) : (addr < 0 ∨ 255 < addr) ∨ ∃ n : Nat, n ≤ 255 ∧ addr = n := by
  rcases checkAddress_cases addr with ⟨h0, h255, _⟩ | ⟨h, _⟩
  · exact .inr ⟨addr.toNat, by omega, (Int.toNat_of_nonneg h0).symm⟩
  · exact .inl h

section Outside

variable {addr : Int} (h : addr < 0 ∨ 255 < addr)
include h

theorem checkAddress_outside : checkAddress addr = .error ⟨.addressOutOfRange, addr⟩ := if_pos h

theorem memRead_outside (s : State) : memRead addr s = .error ⟨.addressOutOfRange, addr⟩ := by
  simp only [memRead, checkAddress_outside h, seq_error]

theorem memWrite_outside (v : Byte) (s : State) : memWrite addr v s = .error ⟨.addressOutOfRange, addr⟩ := by
  simp only [memWrite, checkAddress_outside h, seq_error]

end Outside

/-- A checked write that happens is at one of the memory's addresses and writes that byte (R35, R36). -/
theorem memWrite_eq_ok {addr : Int} {v : Byte} {s t : State} (h : memWrite addr v s = .ok t) :
    ∃ n : Nat, n ≤ 255 ∧ addr = n ∧ t = s.setMem (s.mem.write n v) := by
  rcases address_cases addr with hout | ⟨n, hn, rfl⟩
  · rw [memWrite_outside hout] at h
    cases h
  · rw [memWrite_nat hn] at h
    cases h
    exact ⟨n, hn, rfl, rfl⟩

/-- A checked read after a write: the byte written at that address, the old answer at any other (R33). -/
theorem memRead_setMem_write {s : State} (hwf : s.mem.wf = true) {n : Nat} (hn : n ≤ 255) (v : Byte) (b : Int) :
    memRead b (s.setMem (s.mem.write n v)) = if b = n then .ok v else memRead b s := by
  rcases address_cases b with hout | ⟨m, hm, rfl⟩
  · have hne : b ≠ n := by omega
    rw [if_neg hne, memRead_outside hout, memRead_outside hout]
  · simp only [memRead_nat hm, State.setMem_mem, Memory.read_write hwf, Nat.cast_inj]
    split <;> rfl

/-- Settles O21: an address lies outside 0..255, and the check raises it, or is one of the memory's. -/
theorem memoryAccessChecked : Obligations.MemoryAccessChecked := by
  unfold Obligations.MemoryAccessChecked
  intro addr v s
  refine ⟨fun h => ⟨memRead_outside h s, memWrite_outside h v s⟩, fun h0 h255 => ?_⟩
  obtain ⟨n, rfl⟩ := Int.eq_ofNat_of_zero_le h0
  have hn : n ≤ 255 := by omega
  exact ⟨memRead_nat hn s, memWrite_nat hn v s⟩

/-- Settles O20: a write that happens is at one of the memory's addresses, and every read answers from the cell it
names. -/
theorem memoryReadsLastWrite : Obligations.MemoryReadsLastWrite := by
  unfold Obligations.MemoryReadsLastWrite
  refine ⟨fun s t a b v hwf hw => ?_, fun spInit b hb => memRead_nat hb (State.create spInit)⟩
  obtain ⟨n, hn, rfl, rfl⟩ := memWrite_eq_ok hw
  exact ⟨Memory.write_wf hwf v (Nat.lt_succ_of_le hn), memRead_setMem_write hwf hn v b⟩

/-! ### Memory in a step -/

/-- At a pc of at most 253 the fetch answers the three bytes there (R66). -/
theorem fetch_eq_ok {s : State} (h : s.pc.toNat ≤ 253) :
    fetch s = .ok (s.mem.read s.pc.toNat, s.mem.read (s.pc.toNat + 1), s.mem.read (s.pc.toNat + 2)) := by
  have hA : memRead ((s.pc.toNat : Int) + 1) s = .ok _ := memRead_succ (n := 1) (by omega) s
  have hB : memRead ((s.pc.toNat : Int) + 2) s = .ok _ := memRead_succ (n := 2) (by omega) s
  simp only [fetch, memRead_byte, hA, hB, seq_ok]
  rfl

/-- One below a stack pointer that is not 0. -/
theorem sp_sub_one_toNat {p : Byte} (h : p ≠ 0#8) : (p - 1#8).toNat + 1 = p.toNat := by
  bv_omega

/-- A completed instruction keeps the memory, or is PUSH or CALL and writes the one byte at SP - 1 (R32, R39). -/
theorem Completes.mem_eq_or_write {s t : State} {i : Instr} (h : Completes s i t) : t.mem = s.mem ∨
    (∃ a, i = .push a ∨ i = .call a) ∧ s.sp ≠ 0#8 ∧ ∃ v, t.mem = s.mem.write (s.sp - 1#8).toNat v := by
  cases h with
  | push _ hsp => exact .inr ⟨⟨_, .inl rfl⟩, hsp, _, rfl⟩
  | call _ hsp => exact .inr ⟨⟨_, .inr rfl⟩, hsp, _, rfl⟩
  | _ => exact .inl rfl

/-- Settles O22: of the three things a step does, only completing the fetched instruction writes memory, and only PUSH
and CALL do, at SP - 1. -/
theorem onlyPushAndCallWriteMemory : Obligations.OnlyPushAndCallWriteMemory := by
  unfold Obligations.OnlyPushAndCallWriteMemory
  intro s t hwf e b hb
  rcases step_eq_next e with ⟨_, rfl⟩ | ⟨_, r, _, rfl⟩ | ⟨_, _, i, hf, hc⟩
  · exact absurd rfl hb
  · exact absurd rfl hb
  · rcases hc.mem_eq_or_write with hmem | ⟨⟨a, hi⟩, hsp, v, hmem⟩
    · exact absurd (by rw [hmem]) hb
    · have haddr : b = (s.sp - 1#8).toNat := by
        by_contra hne
        exact hb (by rw [hmem, Memory.read_write hwf, if_neg hne])
      refine ⟨haddr ▸ sp_sub_one_toNat hsp, a, ?_⟩
      rcases hi with rfl | rfl
      · exact .inl hf
      · exact .inr hf

/-- An instruction that raises nothing completes. -/
theorem exec_completes {i : Instr} {s : State} (h : execRaise i s = none) :
    ∃ t, Completes s i t ∧ exec i s = .next t := by
  rcases exec_faultsOrCompletes i s with ⟨r, hr, _⟩ | ⟨_, hc⟩
  · cases h.symm.trans hr
  · exact hc

/-- PUSH of a register raises nothing where SP is not 0 and the pc can advance (R72, R85, R87). -/
theorem execRaise_push_eq_none {a : Byte} {k : RegIdx} {s : State} (hk : a.toNat = k.val) (hsp : s.sp ≠ 0#8)
    (hpc : s.pc.toNat ≤ 253) : execRaise (.push a) s = none :=
  execRaise_eq_none.2 ⟨indexRaise_of_register rfl hk.symm, if_neg hsp, if_neg fun ⟨_, h⟩ => by
    simp only [Instr.length] at h; omega⟩

/-- Settles O12: the PUSH completes and leaves the pc on the byte it wrote, so the next fetch reads that byte and the
two old ones after it. -/
theorem storeIsSeenByNextFetch : Obligations.StoreIsSeenByNextFetch := by
  unfold Obligations.StoreIsSeenByNextFetch
  intro a k s hr hwf hk hpc hsp hf
  have hsp0 : s.sp ≠ 0#8 := fun h => by simp [h] at hsp
  obtain ⟨t, hc, e⟩ := exec_completes (execRaise_push_eq_none hk hsp0 (by omega))
  refine ⟨t, (step_of_fetched hr hf).trans e, ?_⟩
  have hpc' : t.pc.toNat = s.pc.toNat + 2 := hc.pc_advance rfl
  have haddr : (s.sp - 1#8).toNat = s.pc.toNat + 2 := by
    have := sp_sub_one_toNat hsp0
    omega
  rw [fetch_eq_ok (by omega), hpc']
  cases hc with
  | push hi =>
    cases regIdx_eq_of_operand hi hk.symm
    simp [haddr, Memory.read_write hwf]

/-! ### The load operation -/

theorem load_of_fits {s : State} {bytes : List Byte} (h : bytes.length ≤ 256) :
    s.load bytes = .loaded (s.setMem (s.mem.writeBytes 0 bytes)) :=
  if_neg (Nat.not_lt.2 h)

theorem load_of_too_long {s : State} {bytes : List Byte} (h : 256 < bytes.length) :
    s.load bytes = .overflow bytes.length s :=
  if_pos h

/-- A loaded program reads as its bytes from address 0, and the memory after it as before (R114). -/
theorem read_writeBytes_zero {m : Memory} (hwf : m.wf = true) {bytes : List Byte} (h : bytes.length ≤ 256) (k : Nat) :
    (m.writeBytes 0 bytes).read k = if hk : k < bytes.length then bytes[k] else m.read k := by
  rw [Memory.read_writeBytes hwf 0 k bytes (by simpa using h)]
  by_cases hk : k < bytes.length <;> simp [hk]

/-- Settles O24: the load is into the memory of reset, which reads 0 everywhere. -/
theorem loadWritesProgramFromZero : Obligations.LoadWritesProgramFromZero := by
  unfold Obligations.LoadWritesProgramFromZero
  intro spInit bytes
  have hwf := Memory.create_wf spInit
  refine ⟨fun _ => rfl, fun h => ⟨_, load_of_fits h, fun k hk => ?_, fun k hk => ?_, rfl, ?_⟩,
    load_of_too_long⟩
  · exact (read_writeBytes_zero hwf h k).trans (dif_pos hk)
  · exact (read_writeBytes_zero hwf h k).trans (dif_neg (Nat.not_lt.2 hk))
  · exact State.load_wf hwf (load_of_fits h)

end Sys2Proof
end

section
/-! PROOFS. The encoding: an instruction is decoded exactly from three bytes that begin with its encoding, its length
is in its opcode, and a placed encoding is what the next fetch decodes. The statements about the encoding are settled
from these. -/

namespace Sys2Proof

open Machine

section Encoding

variable {op a b : Byte} {i : Instr}

/-! ### Lengths and opcodes -/

@[simp] theorem length_encode (i : Instr) : (encode i).length = i.length := by
  cases i <;> rfl

/-- The length is in the opcode's two high bits (R51, R52). -/
theorem Instr.length_eq_opcode_div (i : Instr) : i.length = i.opcode.toNat / 64 + 1 := by
  cases i <;> simp [Instr.length, Instr.opcode]

theorem Instr.length_le_three (i : Instr) : i.length ≤ 3 := by
  cases i <;> simp [Instr.length]

/-- No opcode has both high bits set (R52). -/
theorem Instr.opcode_lt (i : Instr) : i.opcode.toNat < 192 := by
  have hlen := i.length_le_three
  rw [i.length_eq_opcode_div] at hlen
  omega

/-- Instructions with one opcode have one length (R60). -/
theorem Instr.length_eq_of_opcode_eq {i j : Instr} (h : i.opcode = j.opcode) : i.length = j.length := by
  rw [i.length_eq_opcode_div, j.length_eq_opcode_div, h]

theorem opcode_of_decode (h : decode op a b = .ok i) : i.opcode = op := by
  rcases decode_cases op a b with ⟨j, hj, hop⟩ | e
  · cases hj.symm.trans h
    exact hop
  · cases e.symm.trans h

/-- A byte that is no instruction's opcode is refused, whatever follows it (R57, R59). -/
theorem decode_of_forall_opcode_ne (h : ∀ i : Instr, i.opcode ≠ op) (a b : Byte) :
    decode op a b = .error (.unknownOpcode op) := by
  rcases decode_cases op a b with ⟨i, _, hop⟩ | e
  · exact absurd hop (h i)
  · exact e

/-! ### Decoding an encoding -/

/-- An encoding, whatever bytes follow it, decodes to its instruction (R50, R56). -/
theorem decodeBytes_encode_append (i : Instr) (tail : List Byte) : decodeBytes (encode i ++ tail) = .ok i := by
  cases i <;> rfl

/-- Three bytes decode to an instruction exactly when they begin with its encoding (R50, R53, R56). -/
theorem decode_eq_ok_iff : decode op a b = .ok i ↔ encode i = [op, a, b].take i.length := by
  constructor
  · intro h
    rcases decode_eq_ok h with ⟨rfl, rfl⟩ | ⟨rfl, rfl⟩ | ⟨rfl, rfl⟩ | ⟨rfl, rfl⟩ | ⟨rfl, rfl⟩ | ⟨rfl, rfl⟩ |
      ⟨rfl, rfl⟩ | ⟨rfl, rfl⟩ | ⟨rfl, rfl⟩ <;> rfl
  · intro h
    calc decode op a b = decodeBytes ([op, a, b].take i.length ++ [op, a, b].drop i.length) := by
          rw [List.take_append_drop]; rfl
      _ = .ok i := by rw [← h, decodeBytes_encode_append]

end Encoding

/-- Settles O2: both halves are the decoder's characterization by the encoder. -/
theorem decodeInvertsEncode : Obligations.DecodeInvertsEncode := by
  unfold Obligations.DecodeInvertsEncode
  exact ⟨decodeBytes_encode_append, fun _ _ _ _ => decode_eq_ok_iff.1⟩

/-- Settles O1: each word is the encoding of its instruction, filled up with zero bytes. -/
theorem decodesWordsOfTheSpec : Obligations.DecodesWordsOfTheSpec := by
  unfold Obligations.DecodesWordsOfTheSpec
  exact ⟨decodeBytes_encode_append (.ldi 3 255) [], decodeBytes_encode_append (.prn 2) [0],
    decodeBytes_encode_append .hlt [0, 0], decodeBytes_encode_append (.mul 1 0) [],
    decodeBytes_encode_append (.add 9 8) [], decodeBytes_encode_append (.push 7) [0],
    decodeBytes_encode_append (.pop 1) [0], decodeBytes_encode_append (.call 1) [0],
    decodeBytes_encode_append .ret [0, 0]⟩

/-- Settles O3: for each opcode the bytes begin with the encoding of its instruction, and a byte outside the nine is no
instruction's opcode. -/
theorem decoderComparesWholeOpcode : Obligations.DecoderComparesWholeOpcode := by
  unfold Obligations.DecoderComparesWholeOpcode
  intro op a b
  refine ⟨?_, ?_, ?_, ?_, ?_, ?_, ?_, ?_, ?_, fun hop => ?unknown⟩
  case unknown =>
    refine decode_of_forall_opcode_ne ?_ a b
    rintro i rfl
    exact hop i.opcode_mem
  all_goals
    rintro rfl
    exact decode_eq_ok_iff.2 rfl

/-- Settles O4: the table of lengths is the table of opcodes' high bits, and no length is 4. -/
theorem lengthIsTwoHighBitsPlusOne : Obligations.LengthIsTwoHighBitsPlusOne := by
  unfold Obligations.LengthIsTwoHighBitsPlusOne
  refine ⟨fun i => ⟨i.length_eq_opcode_div, length_encode i⟩, fun op a b hop => ?_⟩
  refine decode_of_forall_opcode_ne ?_ a b
  rintro i rfl
  exact absurd hop (Nat.not_le.2 i.opcode_lt)

/-- Settles O5: the first bytes, as many as the instruction's length, decide what is decoded. -/
theorem unusedCandidateBytesIgnored : Obligations.UnusedCandidateBytesIgnored := by
  unfold Obligations.UnusedCandidateBytesIgnored
  intro op a b i h
  rw [decode_eq_ok_iff] at h
  refine ⟨fun hlen b' => decode_eq_ok_iff.2 ?_, fun hlen a' b' => decode_eq_ok_iff.2 ?_⟩
  · calc encode i = ([op, a] ++ [b]).take i.length := h
      _ = [op, a].take i.length := List.take_append_of_le_length hlen
      _ = ([op, a] ++ [b']).take i.length := (List.take_append_of_le_length hlen).symm
  · rw [h, hlen]
    rfl

/-! ### Fetching an encoding -/

/-- At a pc of at most 253 the instruction of the cycle is what the three bytes there decode to (R66, R67). -/
theorem fetchInstr_eq_decodeOrRaise {s : State} (h : s.pc.toNat ≤ 253) : fetchInstr s =
    decodeOrRaise (s.mem.read s.pc.toNat) (s.mem.read (s.pc.toNat + 1)) (s.mem.read (s.pc.toNat + 2)) := by
  rw [fetchInstr, fetch_eq_ok h, seq_ok]

theorem decodeOrRaise_of_decode {op a b : Byte} {i : Instr} (h : decode op a b = .ok i) :
    decodeOrRaise op a b = .ok i := by
  rw [decodeOrRaise, h]

/-- Settles O50: the opcode decides whether there is an instruction, and its length; and the fetch reads the three
bytes alone. -/
theorem decodedFromOpcodeAlone : Obligations.DecodedFromOpcodeAlone := by
  unfold Obligations.DecodedFromOpcodeAlone
  refine ⟨fun op a b a' b' i h => ?_, fun op a b a' b' h => decode_eq_error h a' b', fun s t hs ht h => ?_⟩
  · rcases decode_cases op a' b' with ⟨i', h', hop⟩ | e
    · exact ⟨i', h', hop, Instr.length_eq_of_opcode_eq (hop.trans (opcode_of_decode h).symm)⟩
    · cases h.symm.trans (decode_eq_error e a b)
  · have hop : t.mem.read t.pc.toNat = s.mem.read s.pc.toNat := h 0 (by omega)
    rw [fetchInstr_eq_decodeOrRaise ht, fetchInstr_eq_decodeOrRaise hs, hop, h 1 (by omega), h 2 (by omega)]

/-- Bytes placed at the pc read back, as far as the memory reaches. -/
theorem read_placeAtPc {s : State} (hwf : s.mem.wf = true) {bytes : List Byte} {k : Nat} (hk : k < bytes.length)
    (hfit : s.pc.toNat + k < 256) : (placeAtPc s bytes).mem.read (s.pc.toNat + k) = bytes[k] := by
  have hlen : s.pc.toNat + (bytes.take (256 - s.pc.toNat)).length ≤ 256 := by
    simp only [List.length_take]
    omega
  have hin : k < (bytes.take (256 - s.pc.toNat)).length := by
    simp only [List.length_take]
    omega
  calc (placeAtPc s bytes).mem.read (s.pc.toNat + k)
      = (bytes.take (256 - s.pc.toNat)).getD k 0#8 := by
        rw [placeAtPc, State.setMem_mem, Memory.read_writeBytes hwf _ _ _ hlen, if_pos (by omega),
          Nat.add_sub_cancel_left]
    _ = bytes[k] := by rw [List.getD_eq_getElem _ _ hin, List.getElem_take]

/-- The three bytes at the pc begin with an encoding placed there. -/
theorem encode_eq_take_placed {s : State} (hwf : s.mem.wf = true) (hpc : s.pc.toNat ≤ 253) (i : Instr)
    (tail : List Byte) : encode i = ((List.range 3).map fun k =>
      (placeAtPc s (encode i ++ tail)).mem.read (s.pc.toNat + k)).take i.length := by
  have hlen := i.length_le_three
  refine List.ext_getElem (by simp [hlen]) fun k hk _ => ?_
  rw [length_encode] at hk
  rw [List.getElem_take, List.getElem_map, List.getElem_range,
    read_placeAtPc hwf (by rw [List.length_append, length_encode]; omega) (by omega), List.getElem_append_left]

/-- An encoding placed at the pc is what the cycle fetches (R50, R66, R67). -/
theorem fetchInstr_placeAtPc {s : State} (hwf : s.mem.wf = true) (hpc : s.pc.toNat ≤ 253) (i : Instr)
    (tail : List Byte) : fetchInstr (placeAtPc s (encode i ++ tail)) = .ok i :=
  (fetchInstr_eq_decodeOrRaise (s := placeAtPc s _) hpc).trans
    (decodeOrRaise_of_decode (decode_eq_ok_iff.2 (encode_eq_take_placed hwf hpc i tail)))

/-- Settles O11: the cycle fetches the instruction placed, and the step runs what it fetches. -/
theorem placedInstructionRunsNext : Obligations.PlacedInstructionRunsNext := by
  unfold Obligations.PlacedInstructionRunsNext
  intro i tail s hr hpc hwf
  exact step_of_fetched hr (fetchInstr_placeAtPc hwf hpc i tail)

end Sys2Proof
end

section
/-! PROOFS. The execution cycle: the fetch, whole; which instruction a step runs; the status a step leaves. -/

namespace Sys2Proof

open Machine

section Cycle

variable {s t : State} {i : Instr}

/-! ### Fetch and decode -/

/-- At pc 254 and 255 one of the two operand reads is at address 256, whatever the opcode (R66). -/
theorem fetch_eq_error (h : 254 ≤ s.pc.toNat) : fetch s = .error ⟨.addressOutOfRange, 256⟩ := by
  have hpc : s.pc.toNat = 254 ∨ s.pc.toNat = 255 := by omega
  have hend : memRead 256 s = .error ⟨.addressOutOfRange, 256⟩ := memRead_outside (.inr (by decide)) s
  rw [fetch, memRead_byte, seq_ok]
  rcases hpc with hpc | hpc <;> rw [hpc]
  · have hA : memRead 255 s = .ok _ := memRead_nat (n := 255) (by decide) s
    simp [hA, hend]
  · simp [hend]

/-- The instruction of a cycle is what the three bytes at a pc of at most 253 decode to (R66, R67). -/
theorem fetchInstr_eq_ok_iff : fetchInstr s = .ok i ↔ s.pc.toNat ≤ 253 ∧
    decode (s.mem.read s.pc.toNat) (s.mem.read (s.pc.toNat + 1)) (s.mem.read (s.pc.toNat + 2)) = .ok i :=
  ⟨fetchInstr_eq_ok, fun ⟨hpc, hd⟩ => (fetchInstr_eq_decodeOrRaise hpc).trans (decodeOrRaise_of_decode hd)⟩

/-- A cycle fetches HLT exactly where its one byte stands at a pc of at most 253 (R66, R79). -/
theorem fetchInstr_eq_hlt_iff : fetchInstr s = .ok .hlt ↔ s.pc.toNat ≤ 253 ∧ s.mem.read s.pc.toNat = 0x01#8 := by
  rw [fetchInstr_eq_ok_iff, decode_eq_ok_iff]
  simp [encode, Instr.length, eq_comm]

/-! ### The status after a step -/

/-- HLT, once fetched, raises nothing: the fetch has left room for its advance (R66, R79). -/
theorem firstRaise_of_hlt (hf : fetchInstr s = .ok .hlt) : firstRaise s = none := by
  have hpc := (fetchInstr_eq_hlt_iff.1 hf).1
  rw [firstRaise_of_fetched hf]
  exact execRaise_eq_none.2 ⟨rfl, rfl, if_neg fun ⟨_, h⟩ => by simp only [Instr.length] at h; omega⟩

/-- A step from RUNNING that ends FAULTED took the cycle's first raise (R64, R68). -/
theorem step_eq_takeFault (hr : s.status = .running) (e : step s = .next t) (hf : t.status = .faulted) :
    ∃ r, firstRaise s = some r ∧ t = s.takeFault r := by
  rcases step_eq_next e with ⟨h, _⟩ | ⟨_, hraised⟩ | ⟨_, _, i, _, hc⟩
  · exact absurd hr h
  · exact hraised
  · exact absurd hf (hc.status_ne_faulted hr)

/-- FAULTED is entered by the cycle's first raise alone (R64). -/
theorem step_faulted_iff (hr : s.status = .running) (e : step s = .next t) :
    t.status = .faulted ↔ ∃ r, firstRaise s = some r := by
  constructor
  · intro hf
    obtain ⟨r, hraise, _⟩ := step_eq_takeFault hr e hf
    exact ⟨r, hraise⟩
  · rintro ⟨r, hraise⟩
    cases e.symm.trans (step_of_firstRaise hr hraise)
    rfl

/-- HALTED is entered by HLT alone (R64, R79). -/
theorem step_halted_iff (hr : s.status = .running) (e : step s = .next t) :
    t.status = .halted ↔ fetchInstr s = .ok .hlt := by
  rcases step_eq_next e with ⟨h, _⟩ | ⟨_, r, hraise, rfl⟩ | ⟨_, _, i, hf, hc⟩
  · exact absurd hr h
  · refine ⟨nofun, fun hf => ?_⟩
    cases hraise.symm.trans (firstRaise_of_hlt hf)
  · constructor
    · intro h
      rcases hc.status_cases with hs | ⟨rfl, _⟩
      · cases h.symm.trans (hs.trans hr)
      · exact hf
    · intro hf'
      cases hf.symm.trans hf'
      cases hc
      rfl

end Cycle

/-- Settles O6: the fetch is three reads, all inside the memory up to pc 253; past it an operand read raises, and that
is the cycle's first raise. -/
theorem fetchReadsThreeBytes : Obligations.FetchReadsThreeBytes := by
  unfold Obligations.FetchReadsThreeBytes
  exact fun s => ⟨fetch_eq_ok, fun h => ⟨fetch_eq_error h, fun hr => step_of_firstRaise hr (if_pos h)⟩⟩

/-- Settles O7: what the bytes at the pc decode to is what the cycle fetches, and the step runs what it fetches. -/
theorem stepRunsDecodedInstruction : Obligations.StepRunsDecodedInstruction := by
  unfold Obligations.StepRunsDecodedInstruction
  exact fun s i hr hpc hd => step_of_fetched hr (fetchInstr_eq_ok_iff.2 ⟨hpc, hd⟩)

/-- Settles O8: outside RUNNING a step is the state itself. -/
theorem stoppedMachineChangesNothing : Obligations.StoppedMachineChangesNothing := by
  unfold Obligations.StoppedMachineChangesNothing
  exact fun s => step_of_stopped

/-- Every instruction answers a next state, its fault included (R68). -/
theorem exec_answers (i : Instr) (s : State) : ∃ t, exec i s = .next t := by
  rcases exec_faultsOrCompletes i s with ⟨r, _, e⟩ | ⟨_, t, _, e⟩
  · exact ⟨_, e⟩
  · exact ⟨t, e⟩

/-- Every step answers a next state: itself, the fault taken, or what the instruction answers (R65, R68). -/
theorem step_answers (s : State) : ∃ t, step s = .next t := by
  rcases step_cases s with ⟨_, e⟩ | ⟨_, r, _, e⟩ | ⟨_, i, _, e⟩
  · exact ⟨s, e⟩
  · exact ⟨_, e⟩
  · rw [e]
    exact exec_answers i s

/-- Settles O9: every instruction faults, as a next state, or completes; and so does every step. -/
theorem everyStepAnswersNext : Obligations.EveryStepAnswersNext := by
  unfold Obligations.EveryStepAnswersNext
  exact ⟨exec_answers, step_answers⟩

/-- Settles O10: a stopped machine stays; a RUNNING one halts by HLT alone and faults by its first raise alone. -/
theorem statusChangesOnlyAsTabled : Obligations.StatusChangesOnlyAsTabled := by
  unfold Obligations.StatusChangesOnlyAsTabled
  intro s t e
  refine ⟨fun hr => ?_, fun hr => ⟨(step_halted_iff hr e).trans fetchInstr_eq_hlt_iff, step_faulted_iff hr e⟩⟩
  cases e.symm.trans (step_of_stopped hr)
  rfl

end Sys2Proof
end

section
/-! PROOFS. The faults of a cycle: which one is taken, and what it leaves. -/

namespace Sys2Proof

open Machine

section Faults

variable {s : State} {i : Instr} {r : Raise} {a b : Byte}

theorem exec_of_execRaise (h : execRaise i s = some r) : exec i s = .next (s.takeFault r) := by
  rcases exec_faultsOrCompletes i s with ⟨r', hraise, e⟩ | ⟨hnone, _⟩
  · cases h.symm.trans hraise
    exact e
  · cases h.symm.trans hnone

/-- A register index out of range is raised before anything else the instruction does (R69, R70). -/
theorem exec_of_indexRaise (h : indexRaise i = some r) : exec i s = .next (s.takeFault r) :=
  exec_of_execRaise (by simp [execRaise, h])

/-- The advance of a three-byte instruction from 253 passes the end of memory (R72). -/
theorem exec_advance_past_end (hpc : s.pc = 253#8) (hlen : i.length = 3) (hj : i.setsPc = false)
    (hi : ∀ r ∈ i.regOperands, r.toNat ≤ 7) (hst : stackRaise i s = none) :
    exec i s = .next (s.takeFault ⟨.addressOutOfRange, 256⟩) := by
  have hadv : pcRaise i s = some ⟨.addressOutOfRange, 256⟩ := by
    rw [pcRaise_eq_advanceRaise (by simp [hpc])]
    exact if_pos ⟨hj, by simp [hpc, hlen]⟩
  exact exec_of_execRaise (by simp [execRaise, indexRaise_eq_none hi, hst, hadv])

/-- A completed instruction leaves FAULTED only where it was FAULTED (R64). -/
theorem Completes.faulted_before {t : State} (h : Completes s i t) (hf : t.status = .faulted) :
    s.status = .faulted := by
  rcases h.status_cases with e | ⟨_, e⟩
  · exact e.symm.trans hf
  · cases e.symm.trans hf

end Faults

/-- Settles O13: what ends FAULTED is a fault taken on the state before, and taking a fault writes nothing but the
status and the record. -/
theorem faultsArePrecise : Obligations.FaultsArePrecise := by
  unfold Obligations.FaultsArePrecise
  refine ⟨fun s t hr e hf => ?_, fun i s t hs e hf => ?_⟩
  · obtain ⟨r, _, rfl⟩ := step_eq_takeFault hr e hf
    exact ⟨rfl, rfl, rfl, rfl, _, rfl, rfl, rfl⟩
  · rcases exec_eq_next e with ⟨r, _, rfl⟩ | ⟨_, hc⟩
    · exact ⟨r, rfl⟩
    · exact absurd (hc.faulted_before hf) hs

/-- Settles O14: the step takes the cycle's first raise, and FAULTED is entered by a raise alone. -/
theorem firstFaultInOrderIsTaken : Obligations.FirstFaultInOrderIsTaken := by
  unfold Obligations.FirstFaultInOrderIsTaken
  intro s hr
  refine ⟨fun r => step_of_firstRaise hr, fun hnone => ?_⟩
  obtain ⟨t, e⟩ := step_answers s
  exact ⟨t, e, by simp [step_faulted_iff hr e, hnone]⟩

/-- Settles O16: each of the instructions checks `a` first, and MUL and ADD then `b`. -/
theorem registerIndexOutOfRangeFaults : Obligations.RegisterIndexOutOfRangeFaults := by
  unfold Obligations.RegisterIndexOutOfRangeFaults
  intro a b s
  refine ⟨fun ha i hi => ?_, fun ha hb i hi => ?_⟩
  · have hfirst : ∃ l, i.regOperands = a :: l := by
      revert i
      simp [Instr.regOperands]
    obtain ⟨l, hl⟩ := hfirst
    exact exec_of_indexRaise (indexRaise_of_first hl ha)
  · have hboth : i.regOperands = [a, b] := by
      revert i
      simp [Instr.regOperands]
    exact exec_of_indexRaise (indexRaise_of_second hboth ha hb)

/-- Settles O19: the operands are in range and the three instructions leave the stack pointer unchecked, so the advance
is the first raise. -/
theorem advancePastEndFaults : Obligations.AdvancePastEndFaults := by
  unfold Obligations.AdvancePastEndFaults
  intro a b s ha hpc
  refine ⟨exec_advance_past_end hpc rfl rfl (by simpa [Instr.regOperands] using ha) rfl, fun hb => ?_⟩
  have hab : ∀ r ∈ [a, b], r.toNat ≤ 7 := by simp [ha, hb]
  exact ⟨exec_advance_past_end hpc rfl rfl hab rfl, exec_advance_past_end hpc rfl rfl hab rfl⟩

end Sys2Proof
end

section
/-! PROOFS. Runs: a run is its steps one after the other, so it keeps what every step keeps and always goes on; and
one that has left RUNNING is over. -/

namespace Sys2Proof

open Machine

/-! ### Runs and steps -/

section Runs

variable {s t u : State}

theorem run_succ (h : step s = .next t) (k : Nat) : core.run (k + 1) s = core.run k t := by
  have hcore : core.step s = .next t := h
  simp only [Host.Core.run, hcore]

/-- A run goes on from where its first part has come to. -/
theorem run_add {k : Nat} (h : core.run k s = .next t) (j : Nat) : core.run (k + j) s = core.run j t := by
  induction k generalizing s with
  | zero =>
    cases h
    rw [Nat.zero_add]
  | succ k ih =>
    obtain ⟨u, e⟩ := step_answers s
    rw [run_succ e] at h
    rw [Nat.succ_add, run_succ e]
    exact ih h

/-- Every run goes on for any number of steps (R65, R68). -/
theorem run_answers (k : Nat) (s : State) : ∃ t, core.run k s = .next t := by
  induction k generalizing s with
  | zero => exact ⟨s, rfl⟩
  | succ k ih =>
    obtain ⟨u, e⟩ := step_answers s
    rw [run_succ e]
    exact ih u

/-- What every step keeps, every run keeps. -/
theorem run_keeps {P : State → Prop} (hstep : ∀ s t, P s → step s = .next t → P t) {k : Nat} (hs : P s)
    (h : core.run k s = .next t) : P t := by
  induction k generalizing s with
  | zero =>
    cases h
    exact hs
  | succ k ih =>
    obtain ⟨u, e⟩ := step_answers s
    rw [run_succ e] at h
    exact ih (hstep s u hs e) h

/-- Outside RUNNING a run stays where it is (R65). -/
theorem run_of_stopped (hs : s.status ≠ .running) (k : Nat) : core.run k s = .next s := by
  induction k with
  | zero => rfl
  | succ k ih => rw [run_succ (step_of_stopped hs), ih]

/-- A run that has left RUNNING answers the same state after any further steps (R65, R75). -/
theorem run_add_of_stopped {k : Nat} (h : core.run k s = .next t) (ht : t.status ≠ .running) (j : Nat) :
    core.run (k + j) s = .next t :=
  (run_add h j).trans (run_of_stopped ht j)

/-- The end of a run is one state, whenever it is looked at (R75). -/
theorem run_end_unique {j k : Nat} (ht : core.run k s = .next t) (hu : core.run j s = .next u)
    (ht' : t.status ≠ .running) (hu' : u.status ≠ .running) : t = u := by
  have e : core.run (k + j) s = .next t := run_add_of_stopped ht ht' j
  have e' : core.run (k + j) s = .next u := Nat.add_comm j k ▸ run_add_of_stopped hu hu' k
  cases e.symm.trans e'
  rfl

end Runs

/-! ### The start of a run -/

/-- A RUNNING state has only its memory and its empty fault record to answer for. -/
theorem Inv.of_running {s : State} (hwf : s.mem.wf = true) (hr : s.status = .running) (hf : s.fault = none) :
    Inv s where
  mem_wf := hwf
  no_fault := fun _ => hf
  fault_record := fun h => by cases hr.symm.trans h
  halted_after_hlt := fun h => by cases hr.symm.trans h

/-- A load changes the memory alone (R114). -/
theorem load_eq_loaded {s t : State} {bytes : List Byte} (h : s.load bytes = .loaded t) :
    t = s.setMem (s.mem.writeBytes 0 bytes) := by
  rcases Nat.lt_or_ge 256 bytes.length with hlong | hfits
  · cases h.symm.trans (load_of_too_long hlong)
  · cases h.symm.trans (load_of_fits hfits)
    rfl

/-- The state in which a run starts meets the invariant (R111, R113). -/
theorem inv_of_boot {spInit : Byte} {program : List Byte} {s : State} (h : boot spInit program = .loaded s) :
    Inv s := by
  have hwf := State.load_wf (Memory.create_wf spInit) h
  cases load_eq_loaded h
  exact .of_running hwf rfl rfl

/-! ### The statements about runs -/

/-- Settles O46: a run starts with the invariant and every step keeps it; and every step answers. -/
theorem everyRunMeetsInvariant : Obligations.EveryRunMeetsInvariant := by
  unfold Obligations.EveryRunMeetsInvariant
  refine ⟨fun spInit program k s ⟨s₀, hboot, hrun⟩ => ?_, fun spInit program hlen k => ?_⟩
  · exact run_keeps stepKeepsInvariant (inv_of_boot hboot) hrun
  · have hboot : boot spInit program = .loaded _ := load_of_fits hlen
    obtain ⟨s, hrun⟩ := run_answers k _
    exact ⟨s, _, hboot, hrun⟩

/-- Settles O47: a run that halted and one that faulted, of one program, would end in one state. -/
theorem endOfRunIsFinal : Obligations.EndOfRunIsFinal := by
  unfold Obligations.EndOfRunIsFinal
  refine ⟨fun k j s₀ s h hs => run_add_of_stopped h hs j, ?_⟩
  rintro spInit program ⟨k, s, ⟨s₀, hboot, hrun⟩, hhalted⟩ k' s' ⟨s₀', hboot', hrun'⟩ hfaulted
  cases hboot.symm.trans hboot'
  have hsame : s = s' := run_end_unique hrun hrun' (by simp [hhalted]) (by simp [hfaulted])
  cases hhalted.symm.trans (hsame ▸ hfaulted)

end Sys2Proof
end

section
/-! PROOFS. LDI, PRN and HLT: each raises nothing where its operand is a register and its advance stays inside memory,
and so completes by its rule. -/

namespace Sys2Proof

open Machine

/-- An instruction completes where its register operands are in range, SP passes the check it may make of it, and an
advance by its length stays inside memory (R69). -/
theorem exec_completes_of_in_range {i : Instr} {s : State} (hi : indexRaise i = none) (hst : stackRaise i s = none)
    (hpc : s.pc.toNat + i.length ≤ 255) : ∃ t, Completes s i t ∧ exec i s = .next t :=
  exec_completes (execRaise_eq_none.2 ⟨hi, hst, if_neg fun ⟨_, h⟩ => Nat.not_lt.2 hpc h⟩)

/-- Settles O25: LDI completes, and its working copy is `s` with one register set and the pc advanced. -/
theorem ldiLoadsImmediate : Obligations.LdiLoadsImmediate := by
  unfold Obligations.LdiLoadsImmediate
  intro a imm i s hk hpc
  have hadv : s.pc.toNat + (Instr.ldi a imm).length ≤ 255 := by
    simp only [Instr.length]; omega
  obtain ⟨t, hc, e⟩ := exec_completes_of_in_range (indexRaise_of_register rfl hk.symm) rfl hadv
  refine ⟨t, e, ?_⟩
  cases hc with
  | ldi hi hp =>
    cases regIdx_eq_of_operand hi hk.symm
    exact ⟨by simp, fun j hj => by simp [hj], hp, fun _ => rfl, ⟨rfl, rfl⟩, rfl⟩

/-- Settles O26: PRN completes, and its working copy is `s` with one byte emitted and the pc advanced. -/
theorem prnAppendsRegister : Obligations.PrnAppendsRegister := by
  unfold Obligations.PrnAppendsRegister
  intro a i s hk hpc
  have hadv : s.pc.toNat + (Instr.prn a).length ≤ 255 := by
    simp only [Instr.length]; omega
  obtain ⟨t, hc, e⟩ := exec_completes_of_in_range (indexRaise_of_register rfl hk.symm) rfl hadv
  refine ⟨t, e, hc.out_prn hk, ?_⟩
  cases hc with
  | prn _ hp => exact ⟨fun _ => rfl, hp, fun _ => rfl, rfl, rfl⟩

/-- Settles O27: HLT has no operand to check; it completes, and its working copy is `s` halted and the pc advanced. -/
theorem hltHaltsAndAdvances : Obligations.HltHaltsAndAdvances := by
  unfold Obligations.HltHaltsAndAdvances
  intro s hpc
  have hadv : s.pc.toNat + Instr.hlt.length ≤ 255 := by
    simp only [Instr.length]; omega
  obtain ⟨t, hc, e⟩ := exec_completes_of_in_range rfl rfl hadv
  refine ⟨t, e, ?_⟩
  cases hc with
  | hlt hp => exact ⟨rfl, hp, fun _ => rfl, fun _ => rfl, rfl, rfl⟩

end Sys2Proof
end

section
/-! PROOFS. Arithmetic: ADD and MUL complete where both operands name registers and the advance stays inside memory,
and set one register to the low 8 bits of the exact result; the ALU and the causes a cycle can raise. -/

namespace Sys2Proof

open Machine

/-! ### ADD and MUL complete -/

/-- A three-byte instruction on two registers that makes no check of SP completes up to pc 252 (R70, R72). -/
theorem exec_completes_of_two_registers {ins : Instr} {a b : Byte} {i j : RegIdx} {s : State}
    (hops : ins.regOperands = [a, b]) (hlen : ins.length = 3) (hst : stackRaise ins s = none)
    (ha : a.toNat = i.val) (hb : b.toNat = j.val) (hpc : s.pc.toNat ≤ 252) :
    ∃ t, Completes s ins t ∧ exec ins s = .next t :=
  exec_completes_of_in_range (indexRaise_of_registers hops ha.symm hb.symm) hst (by omega)

/-- The frame of setting one register and advancing the pc: nothing else changes. -/
theorem frame_setReg_setPc {s t : State} {i : RegIdx} {v p : Byte} {n : Nat} (h : t = (s.setReg i v).setPc p)
    (hp : p.toNat = s.pc.toNat + n) : KeepsRegistersExcept i s t ∧ t.pc.toNat = s.pc.toNat + n ∧
      KeepsMemory s t ∧ KeepsControl s t ∧ t.out = s.out := by
  subst h
  exact ⟨fun j hj => by simp [hj], hp, fun _ => rfl, ⟨rfl, rfl⟩, rfl⟩

/-- Settles O28: MUL completes, and its working copy is `s` with the product in one register and the pc advanced. -/
theorem mulMultipliesRegisters : Obligations.MulMultipliesRegisters := by
  unfold Obligations.MulMultipliesRegisters
  intro a b i j s ha hb hpc
  obtain ⟨t, hc, e⟩ := exec_completes_of_two_registers (ins := .mul a b) rfl rfl rfl ha hb hpc
  refine ⟨t, e, ?_⟩
  cases hc with
  | mul hi hj hp =>
    cases regIdx_eq_of_operand hi ha.symm
    cases regIdx_eq_of_operand hj hb.symm
    exact ⟨by simp, frame_setReg_setPc rfl hp⟩

/-- Settles O29: ADD completes, and its working copy is `s` with the sum in one register and the pc advanced. -/
theorem addAddsRegisters : Obligations.AddAddsRegisters := by
  unfold Obligations.AddAddsRegisters
  intro a b i j s ha hb hpc
  obtain ⟨t, hc, e⟩ := exec_completes_of_two_registers (ins := .add a b) rfl rfl rfl ha hb hpc
  refine ⟨t, e, ?_⟩
  cases hc with
  | add hi hj hp =>
    cases regIdx_eq_of_operand hi ha.symm
    cases regIdx_eq_of_operand hj hb.symm
    exact ⟨by simp, frame_setReg_setPc rfl hp⟩

/-- Settles O34: ADD and MUL complete in both operand orders, and the sum and the product, before they are cut to 8
bits, do not depend on the order. -/
theorem arithmeticWrapsAndCommutes : Obligations.ArithmeticWrapsAndCommutes := by
  unfold Obligations.ArithmeticWrapsAndCommutes
  intro a b i j s ha hb hpc
  obtain ⟨t, et, ht, htregs, _, _, htctl, htout⟩ := addAddsRegisters a b i j s ha hb hpc
  obtain ⟨t', et', ht', _⟩ := addAddsRegisters b a j i s hb ha hpc
  obtain ⟨u, eu, hu, huregs, _, _, huctl, huout⟩ := mulMultipliesRegisters a b i j s ha hb hpc
  obtain ⟨u', eu', hu', _⟩ := mulMultipliesRegisters b a j i s hb ha hpc
  have hsum : t'.reg j = t.reg i := BitVec.eq_of_toNat_eq (by rw [ht', ht, Nat.add_comm])
  have hproduct : u'.reg j = u.reg i := BitVec.eq_of_toNat_eq (by rw [hu', hu, Nat.mul_comm])
  exact ⟨t, t', u, u', et, et', eu, eu', ht, hsum, hu, hproduct, htregs, huregs, htctl, huctl, htout, huout⟩

/-! ### The ALU -/

/-- The ALU's ADD sets register `i` to the sum and keeps every other (R80). -/
theorem alu_add (i j : RegIdx) (s : State) : ∃ t, alu .add i j s = .ok t ∧
    (t.reg i).toNat = ((s.reg i).toNat + (s.reg j).toNat) % 256 ∧ KeepsRegistersExcept i s t :=
  ⟨_, rfl, by simp, fun k hk => by simp [hk]⟩

/-- No cycle raises UnsupportedAluOperation (R96). -/
theorem firstRaise_cause_ne_unsupported {s : State} {r : Raise} (h : firstRaise s = some r) :
    r.cause ≠ .unsupportedAluOperation := by
  obtain ⟨_, _, ⟨hcause, _⟩ | ⟨hcause, _⟩⟩ := firstRaise_recordOk h
  · exact ne_of_eq_of_ne hcause (by decide)
  · exact ne_of_eq_of_ne hcause (by decide)

/-- Settles O35: the ALU does nothing but ADD, and a step that ends FAULTED records its cycle's first raise, which is
never of that cause. -/
theorem aluSupportsOnlyAdd : Obligations.AluSupportsOnlyAdd := by
  unfold Obligations.AluSupportsOnlyAdd
  refine ⟨alu_add, fun _ _ _ _ => rfl, fun s t r hr e hf hrec => ?_⟩
  obtain ⟨raise, hraise, rfl⟩ := step_eq_takeFault hr e hf
  cases hrec
  exact firstRaise_cause_ne_unsupported hraise

end Sys2Proof
end

section
/-! PROOFS. The stack: by how much each of its four instructions moves SP and where it faults instead; what PUSH
stores and POP loads; and that POP undoes PUSH. -/

namespace Sys2Proof

open Machine

section Frame

variable {s t : State} {i : Instr}

/-! ### What a completed instruction keeps -/

/-- HLT alone writes the control state (R27, R79). -/
theorem Completes.keepsControl (h : Completes s i t) (hi : i ≠ .hlt) : KeepsControl s t := by
  rcases h.status_cases with e | ⟨e, _⟩
  · exact ⟨e, h.fault_eq⟩
  · exact absurd e hi

/-- PRN alone writes the output (R26). -/
theorem Completes.out_eq (h : Completes s i t) (hi : ∀ a, i ≠ .prn a) : t.out = s.out := by
  rcases h.out_cases with e | ⟨a, _, e, _⟩
  · exact e
  · exact absurd e (hi a)

/-- PUSH and CALL alone write memory (R32, R39). -/
theorem Completes.keepsMemory (h : Completes s i t) (hi : ∀ a, i ≠ .push a ∧ i ≠ .call a) : KeepsMemory s t := by
  intro b
  rcases h.mem_eq_or_write with e | ⟨⟨a, e | e⟩, _⟩
  · rw [e]
  · exact absurd e (hi a).1
  · exact absurd e (hi a).2

/-- No instruction writes memory outside SP - 1 (R32, R39). -/
theorem Completes.keepsMemoryExcept (h : Completes s i t) (hwf : s.mem.wf = true) :
    KeepsMemoryExcept (s.sp - 1#8).toNat s t := by
  intro b hb
  rcases h.mem_eq_or_write with e | ⟨_, _, v, e⟩
  · rw [e]
  · rw [e, Memory.read_write hwf, if_neg hb]

/-- An instruction that writes no register but SP keeps the others (R15). -/
theorem Completes.keepsRegistersExceptSp (h : Completes s i t) (hi : i.writes = [7]) :
    KeepsRegistersExcept 7 s t :=
  fun j hj => h.reg_eq_of_not_mem_writes (by simpa [hi] using hj)

end Frame

section Stack

variable {s t : State} {i : Instr} {r : Raise} {a : Byte} {k : RegIdx}

/-! ### The operand and the stack pointer's check -/

theorem exists_register_of_le (ha : a.toNat ≤ 7) : ∃ k : RegIdx, a.toNat = k.val :=
  ⟨⟨a.toNat, Nat.lt_succ_of_le ha⟩, rfl⟩

/-- The operand byte 7 and no other names SP (R16). -/
theorem operand_eq_seven_iff (hk : a.toNat = k.val) : a = 7#8 ↔ k = 7 := by
  rw [Fin.ext_iff, ← hk, ← BitVec.toNat_inj]
  rfl

theorem exec_of_stackRaise (hi : indexRaise i = none) (h : stackRaise i s = some r) :
    exec i s = .next (s.takeFault r) :=
  exec_of_execRaise (by simp [execRaise, hi, h])

/-- One above a stack pointer that is not 255. -/
theorem sp_add_one_toNat {p : Byte} (h : p ≠ 255#8) : (p + 1#8).toNat = p.toNat + 1 := by
  bv_omega

/-! ### The decrement of PUSH and CALL -/

/-- CALL of a register raises nothing where SP is not 0: it makes no sequential advance (R73, R85, R89). -/
theorem execRaise_call_eq_none (hk : a.toNat = k.val) (hsp : s.sp ≠ 0#8) : execRaise (.call a) s = none :=
  execRaise_eq_none.2 ⟨indexRaise_of_register rfl hk.symm, if_neg hsp, if_neg nofun⟩

theorem Completes.sp_of_decrement (h : Completes s i t) (hi : i = .push a ∨ i = .call a) : t.sp = s.sp - 1#8 := by
  rcases hi with rfl | rfl
  · cases h
    simp
  · cases h
    simp

/-! ### PUSH -/

/-- PUSH leaves at the new SP its register as it is after the decrement (R87). -/
theorem Completes.read_pushed (h : Completes s (.push a) t) (hk : a.toNat = k.val) (hwf : s.mem.wf = true) :
    t.mem.read (s.sp - 1#8).toNat = if k = 7 then s.sp - 1#8 else s.reg k := by
  cases h with
  | push hi =>
    cases regIdx_eq_of_operand hi hk.symm
    simp [Memory.read_write hwf]

/-! ### POP -/

/-- The SP that POP into register `k` increments: SP after the byte at SP has gone to that register (R88). -/
def spAfterLoad (k : RegIdx) (s : State) : Byte := (s.setReg k (s.mem.read s.sp.toNat)).sp

theorem spAfterLoad_eq (k : RegIdx) (s : State) :
    spAfterLoad k s = if k = 7 then s.mem.read s.sp.toNat else s.sp :=
  State.sp_setReg s k _

theorem exec_pop_past_end (hk : a.toNat = k.val) (h : spAfterLoad k s = 255#8) :
    exec (.pop a) s = .next (s.takeFault ⟨.addressOutOfRange, 256⟩) :=
  exec_of_stackRaise (indexRaise_of_register rfl hk.symm) ((stackRaise_pop s hk.symm).trans (if_pos h))

/-- POP of a register completes where the SP it increments is not 255 and the pc can advance (R72, R86, R88). -/
theorem exec_pop_completes (hk : a.toNat = k.val) (h : spAfterLoad k s ≠ 255#8) (hpc : s.pc.toNat ≤ 253) :
    ∃ t, Completes s (.pop a) t ∧ exec (.pop a) s = .next t :=
  exec_completes_of_in_range (indexRaise_of_register rfl hk.symm) ((stackRaise_pop s hk.symm).trans (if_neg h))
    (by simp only [Instr.length]; omega)

theorem Completes.sp_pop (h : Completes s (.pop a) t) (hk : a.toNat = k.val) : t.sp = spAfterLoad k s + 1#8 := by
  cases h with
  | pop hi =>
    cases regIdx_eq_of_operand hi hk.symm
    simp [spAfterLoad]

/-- POP loads its register from SP and keeps the others, SP apart (R88). -/
theorem Completes.reg_pop (h : Completes s (.pop a) t) (hk : a.toNat = k.val) {j : RegIdx} (hj : j ≠ 7) :
    t.reg j = if j = k then s.mem.read s.sp.toNat else s.reg j := by
  cases h with
  | pop hi =>
    cases regIdx_eq_of_operand hi hk.symm
    simp [hj]

/-! ### RET -/

/-- RET raises nothing where SP is not 255: it makes no sequential advance (R73, R86, R90). -/
theorem execRaise_ret_eq_none (hsp : s.sp ≠ 255#8) : execRaise .ret s = none :=
  execRaise_eq_none.2 ⟨rfl, if_neg hsp, if_neg nofun⟩

theorem Completes.sp_ret (h : Completes s .ret t) : t.sp = s.sp + 1#8 := by
  cases h
  simp

/-! ### POP after PUSH -/

/-- After PUSH of any register, R7 too, POP of it increments the SP that PUSH left: PUSH R7 stored that SP (R87). -/
theorem Completes.spAfterLoad_pushed (h : Completes s (.push a) t) (hk : a.toNat = k.val) (hwf : s.mem.wf = true) :
    spAfterLoad k t = s.sp - 1#8 := by
  rw [spAfterLoad_eq, h.sp_of_decrement (.inl rfl), h.read_pushed hk hwf]
  split <;> rfl

/-- POP of the register just pushed gives back every register (R88). -/
theorem Completes.x_pop_pushed {u : State} (h : Completes s (.push a) t) (h' : Completes t (.pop a) u)
    (hk : a.toNat = k.val) (hwf : s.mem.wf = true) : u.x = s.x := by
  refine State.x_ext fun j => ?_
  by_cases hj7 : j = 7
  · subst hj7
    calc u.sp = spAfterLoad k t + 1#8 := h'.sp_pop hk
      _ = s.sp - 1#8 + 1#8 := by rw [h.spAfterLoad_pushed hk hwf]
      _ = s.sp := BitVec.sub_add_cancel s.sp 1#8
  · rw [h'.reg_pop hk hj7, h.sp_of_decrement (.inl rfl), h.read_pushed hk hwf, h.keepsRegistersExceptSp rfl j hj7]
    by_cases hjk : j = k
    · subst hjk
      rw [if_pos rfl, if_neg hj7]
    · rw [if_neg hjk]

end Stack

/-! ### The statements about the stack -/

/-- Settles O17: SP 0 is the stack pointer's raise, and from any other SP nothing is raised, so both complete. -/
theorem stackDecrementChecked : Obligations.StackDecrementChecked := by
  unfold Obligations.StackDecrementChecked
  intro a s ha
  obtain ⟨k, hk⟩ := exists_register_of_le ha
  refine ⟨fun hsp => ⟨?_, ?_⟩, fun hsp hpc => ⟨?_, ?_⟩⟩
  · exact exec_of_stackRaise (indexRaise_of_register rfl hk.symm) (if_pos hsp)
  · exact exec_of_stackRaise (indexRaise_of_register rfl hk.symm) (if_pos hsp)
  · obtain ⟨t, hc, e⟩ := exec_completes (execRaise_push_eq_none hk hsp hpc)
    exact ⟨t, e, hc.sp_of_decrement (.inl rfl) ▸ sp_sub_one_toNat hsp, hc.keepsControl nofun⟩
  · obtain ⟨t, hc, e⟩ := exec_completes (execRaise_call_eq_none hk hsp)
    exact ⟨t, e, hc.sp_of_decrement (.inr rfl) ▸ sp_sub_one_toNat hsp, hc.keepsControl nofun⟩

/-- Settles O30: PUSH raises nothing and completes; it stores one byte and writes no register but SP. -/
theorem pushStoresBelowStackPointer : Obligations.PushStoresBelowStackPointer := by
  unfold Obligations.PushStoresBelowStackPointer
  intro a k s hk hsp hpc hwf
  obtain ⟨t, hc, e⟩ := exec_completes (execRaise_push_eq_none hk hsp hpc)
  exact ⟨t, e, hc.sp_of_decrement (.inl rfl), hc.keepsRegistersExceptSp rfl, hc.read_pushed hk hwf,
    hc.keepsMemoryExcept hwf, hc.pc_advance rfl, hc.keepsControl nofun, hc.out_eq nofun⟩

/-- Settles O31: POP raises nothing and completes; for R7 the register it loads is the SP it increments. -/
theorem popLoadsFromStackPointer : Obligations.PopLoadsFromStackPointer := by
  unfold Obligations.PopLoadsFromStackPointer
  intro a k s hk hpc
  refine ⟨fun hk7 hsp => ?_, ?_⟩
  · have hload : spAfterLoad k s = s.sp := (spAfterLoad_eq k s).trans (if_neg hk7)
    obtain ⟨t, hc, e⟩ := exec_pop_completes hk (hload ▸ hsp) hpc
    exact ⟨t, e, (hc.reg_pop hk hk7).trans (if_pos rfl), hload ▸ hc.sp_pop hk,
      fun j hjk hj7 => (hc.reg_pop hk hj7).trans (if_neg hjk), hc.pc_advance rfl,
      hc.keepsMemory fun _ => ⟨nofun, nofun⟩, hc.keepsControl nofun, hc.out_eq nofun⟩
  · rintro rfl hbyte
    have hload : spAfterLoad 7 s = s.mem.read s.sp.toNat := spAfterLoad_eq 7 s
    obtain ⟨t, hc, e⟩ := exec_pop_completes hk (hload ▸ hbyte) hpc
    exact ⟨t, e, hload ▸ hc.sp_pop hk, fun j hj7 => (hc.reg_pop hk hj7).trans (if_neg hj7), hc.pc_advance rfl,
      hc.keepsMemory fun _ => ⟨nofun, nofun⟩, hc.keepsControl nofun, hc.out_eq nofun⟩

/-- Settles O18: the SP that POP or RET increments is 255, which is the stack pointer's raise, or nothing is raised
and the instruction completes. -/
theorem stackIncrementChecked : Obligations.StackIncrementChecked := by
  unfold Obligations.StackIncrementChecked
  intro a s ha hpc
  obtain ⟨k, hk⟩ := exists_register_of_le ha
  have hload := spAfterLoad_eq k s
  obtain ⟨hpop, hpop7⟩ := popLoadsFromStackPointer a k s hk hpc
  simp only [ne_eq, operand_eq_seven_iff hk]
  refine ⟨fun h7 hsp => ?_, fun h7 hsp => ?_, fun h7 hbyte => ?_, fun h7 hbyte => ?_, fun hsp => ?_, fun hsp => ?_⟩
  · exact exec_pop_past_end hk ((hload.trans (if_neg h7)).trans hsp)
  · obtain ⟨t, e, _, hsp', _, _, _, hctl, _⟩ := hpop h7 hsp
    exact ⟨t, e, hsp' ▸ sp_add_one_toNat hsp, hctl⟩
  · exact exec_pop_past_end hk ((hload.trans (if_pos h7)).trans hbyte)
  · obtain ⟨t, e, hsp', _, _, _, hctl, _⟩ := hpop7 h7 hbyte
    exact ⟨t, e, hsp' ▸ sp_add_one_toNat hbyte, hctl⟩
  · exact exec_of_stackRaise rfl (if_pos hsp)
  · obtain ⟨t, hc, e⟩ := exec_completes (execRaise_ret_eq_none hsp)
    exact ⟨t, e, hc.sp_ret ▸ sp_add_one_toNat hsp, hc.keepsControl nofun⟩

/-- Settles O36: PUSH completes and leaves an SP that POP can increment, so POP completes and gives every register
back; neither writes anything else but the byte at the new SP. -/
theorem pushThenPopRestoresRegisters : Obligations.PushThenPopRestoresRegisters := by
  unfold Obligations.PushThenPopRestoresRegisters
  intro a s ha hsp hpc hwf
  obtain ⟨k, hk⟩ := exists_register_of_le ha
  obtain ⟨t, hc, e⟩ := exec_completes (execRaise_push_eq_none hk hsp (by omega))
  have hpc' : t.pc.toNat = s.pc.toNat + 2 := hc.pc_advance rfl
  have hroom : s.sp - 1#8 ≠ 255#8 := by bv_omega
  obtain ⟨u, hc', e'⟩ := exec_pop_completes hk (hc.spAfterLoad_pushed hk hwf ▸ hroom) (by omega)
  have hpc'' : u.pc.toNat = t.pc.toNat + 2 := hc'.pc_advance rfl
  have hmem : KeepsMemory t u := hc'.keepsMemory fun _ => ⟨nofun, nofun⟩
  obtain ⟨hstatus, hfault⟩ := hc.keepsControl nofun
  obtain ⟨hstatus', hfault'⟩ := hc'.keepsControl nofun
  exact ⟨t, u, e, e', hc.x_pop_pushed hc' hk hwf, by omega,
    fun b hb => (hmem b).trans (hc.keepsMemoryExcept hwf b hb), ⟨hstatus'.trans hstatus, hfault'.trans hfault⟩,
    (hc'.out_eq nofun).trans (hc.out_eq nofun)⟩

end Sys2Proof
end

section
/-! PROOFS. The subroutine linkage: what CALL leaves at SP and what RET takes from there; RET after CALL, and RET after
PUSH. -/

namespace Sys2Proof

open Machine

section Subroutine

variable {s t u : State} {a : Byte}

/-! ### The return address -/

/-- CALL leaves at the new SP the address of the byte after it (R89). -/
theorem Completes.read_returnAddress (h : Completes s (.call a) t) (hwf : s.mem.wf = true) :
    t.mem.read (s.sp - 1#8).toNat = s.pc + 2#8 := by
  cases h with
  | call => simp [Memory.read_write hwf]

/-- Where an instruction can be fetched, the return address does not wrap (R66, R89). -/
theorem returnAddress_toNat {p : Byte} (h : p.toNat ≤ 253) : (p + 2#8).toNat = p.toNat + 2 := by
  bv_omega

/-! ### RET after a decrement -/

/-- A decremented SP can be incremented again: RET from there completes (R85, R86). -/
theorem exec_ret_completes_of_decremented (hsp : s.sp ≠ 0#8) (ht : t.sp = s.sp - 1#8) :
    ∃ u, Completes t .ret u ∧ exec .ret t = .next u := by
  have hroom : t.sp ≠ 255#8 := by
    rw [ht]
    bv_omega
  exact exec_completes (execRaise_ret_eq_none hroom)

/-- RET takes back a decrement of SP (R85, R90). -/
theorem Completes.sp_ret_of_decremented (h : Completes t .ret u) (ht : t.sp = s.sp - 1#8) : u.sp = s.sp := by
  rw [h.sp_ret, ht, BitVec.sub_add_cancel]

/-- RET after an instruction that only decremented SP gives back every register (R15, R90). -/
theorem Completes.x_ret_of_decremented (h : Completes t .ret u) (hregs : KeepsRegistersExcept 7 s t)
    (ht : t.sp = s.sp - 1#8) : u.x = s.x := by
  refine State.x_ext fun j => ?_
  by_cases hj : j = 7
  · subst hj
    exact h.sp_ret_of_decremented ht
  · exact (h.keepsRegistersExceptSp rfl j hj).trans (hregs j hj)

end Subroutine

/-! ### The statements about subroutines -/

/-- Settles O32: CALL raises nothing and completes; it stores the return address and writes no register but SP. -/
theorem callPushesReturnAddressAndJumps : Obligations.CallPushesReturnAddressAndJumps := by
  unfold Obligations.CallPushesReturnAddressAndJumps
  intro a k s hk hsp hpc hwf
  obtain ⟨t, hc, e⟩ := exec_completes (execRaise_call_eq_none hk hsp)
  exact ⟨t, e, hc.sp_of_decrement (.inr rfl), hc.keepsRegistersExceptSp rfl,
    hc.read_returnAddress hwf ▸ returnAddress_toNat hpc, hc.keepsMemoryExcept hwf, hc.pc_call hk,
    hc.keepsControl nofun, hc.out_eq nofun⟩

/-- Settles O33: RET raises nothing and completes; it writes the pc and no register but SP. -/
theorem retPopsProgramCounter : Obligations.RetPopsProgramCounter := by
  unfold Obligations.RetPopsProgramCounter
  intro s hsp _
  obtain ⟨t, hc, e⟩ := exec_completes (execRaise_ret_eq_none hsp)
  exact ⟨t, e, hc.pc_ret, hc.sp_ret, hc.keepsRegistersExceptSp rfl, hc.keepsMemory fun _ => ⟨nofun, nofun⟩,
    hc.keepsControl nofun, hc.out_eq nofun⟩

/-- Settles O37: the later state has the SP and the return address that CALL left, and RET reads nothing else. -/
theorem retResumesAfterCall : Obligations.RetResumesAfterCall := by
  unfold Obligations.RetResumesAfterCall
  intro a s t u ha hsp hpc hwf e husp hubyte
  obtain ⟨k, hk⟩ := exists_register_of_le ha
  obtain ⟨t', e', htsp, _, hbyte, _⟩ := callPushesReturnAddressAndJumps a k s hk hsp hpc hwf
  cases e.symm.trans e'
  have hdec : u.sp = s.sp - 1#8 := husp.trans htsp
  obtain ⟨v, hc, ev⟩ := exec_ret_completes_of_decremented hsp hdec
  refine ⟨v, ev, ?_, hc.sp_ret_of_decremented hdec⟩
  rw [hc.pc_ret, husp, hubyte, htsp, hbyte]

/-- Settles O38: PUSH leaves its byte at an SP that RET can increment, so RET jumps to that byte and gives every
register back. -/
theorem pushThenRetJumps : Obligations.PushThenRetJumps := by
  unfold Obligations.PushThenRetJumps
  intro a k s hk hsp hpc hwf
  obtain ⟨t, e, hdec, hregs, hbyte, _⟩ := pushStoresBelowStackPointer a k s hk hsp hpc hwf
  obtain ⟨u, hc, e'⟩ := exec_ret_completes_of_decremented hsp hdec
  exact ⟨t, u, e, e', by rw [hc.pc_ret, hdec, hbyte], hc.x_ret_of_decremented hregs hdec⟩

end Sys2Proof
end

section
/-! PROOFS. The exceptions and what the host sees: the unknown opcode, the trace port, the exit codes. -/

namespace Sys2Proof

open Machine

/-! ### The unknown opcode -/

section UnknownOpcode

variable {s : State} {op : Byte} {r : Raise}

/-- The decoder refuses a byte exactly where it is none of the nine, whatever follows it (R57, R59). -/
theorem decode_eq_unknownOpcode_iff (a b : Byte) : decode op a b = .error (.unknownOpcode op) ↔ op ∉ opcodes := by
  constructor
  · have hnine : ∀ o ∈ opcodes, ∃ i, decode o a b = .ok i := by simp [opcodes, decode]
    intro h hop
    obtain ⟨i, e⟩ := hnine op hop
    cases h.symm.trans e
  · intro h
    refine decode_of_forall_opcode_ne ?_ a b
    rintro i rfl
    exact h i.opcode_mem

/-- A number below 256 is an opcode byte exactly where it is the value of one of the nine. -/
theorem ofNat_mem_opcodes_iff {n : Nat} (hn : n < 256) :
    BitVec.ofNat 8 n ∈ opcodes ↔ n ∈ (opcodes.map BitVec.toNat).toFinset := by
  have hval : (BitVec.ofNat 8 n).toNat = n := by simpa using hn
  rw [List.mem_toFinset, ← List.mem_map_of_injective BitVec.toNat_injective, hval]

/-- The bytes outside the nine are the 256 without nine of them (R59). -/
theorem length_filter_not_mem_opcodes :
    ((List.range 256).filter (fun n => BitVec.ofNat 8 n ∉ opcodes)).length = 247 := by
  have hsub : (opcodes.map BitVec.toNat).toFinset ⊆ Finset.range 256 := by decide
  have hsdiff : (Finset.range 256).filter (fun n => BitVec.ofNat 8 n ∉ opcodes) =
      Finset.range 256 \ (opcodes.map BitVec.toNat).toFinset := by
    rw [Finset.sdiff_eq_filter]
    exact Finset.filter_congr fun n hn => not_congr (ofNat_mem_opcodes_iff (Finset.mem_range.1 hn))
  calc ((List.range 256).filter (fun n => BitVec.ofNat 8 n ∉ opcodes)).length
      = ((Finset.range 256).filter (fun n => BitVec.ofNat 8 n ∉ opcodes)).card := rfl
    _ = 256 - 9 := by rw [hsdiff, Finset.card_sdiff_of_subset hsub, Finset.card_range]; rfl

/-- A byte outside the nine, once fetched, is the cycle's first raise (R67, R69). -/
theorem firstRaise_of_unknownOpcode (hpc : s.pc.toNat ≤ 253) (h : s.mem.read s.pc.toNat ∉ opcodes) :
    firstRaise s = some ⟨.unknownOpcode, (s.mem.read s.pc.toNat).toNat⟩ := by
  refine firstRaise_of_fetch_raise ?_
  rw [fetchInstr_eq_decodeOrRaise hpc, decodeOrRaise, (decode_eq_unknownOpcode_iff _ _).2 h]

/-- A first raise of UnknownOpcode comes from a byte outside the nine whose operands were fetched (R94). -/
theorem unknownOpcode_of_firstRaise (h : firstRaise s = some r) (hcause : r.cause = .unknownOpcode) :
    s.pc.toNat ≤ 253 ∧ s.mem.read s.pc.toNat ∉ opcodes ∧ r.value = (s.mem.read s.pc.toNat).toNat := by
  have hpc : s.pc.toNat ≤ 253 := by
    by_contra hhigh
    have hfetch : firstRaise s = some ⟨.addressOutOfRange, 256⟩ := if_pos (by omega)
    cases h.symm.trans hfetch
    cases hcause
  obtain ⟨_, _, ⟨_, hvalue, hdecode⟩ | ⟨haddress, _⟩⟩ := firstRaise_recordOk h
  · exact ⟨hpc, (decode_eq_unknownOpcode_iff _ _).1 hdecode, hvalue⟩
  · cases hcause.symm.trans haddress

theorem step_of_unknownOpcode (hr : s.status = .running) (hpc : s.pc.toNat ≤ 253)
    (h : s.mem.read s.pc.toNat ∉ opcodes) :
    step s = .next (s.takeFault ⟨.unknownOpcode, (s.mem.read s.pc.toNat).toNat⟩) :=
  step_of_firstRaise hr (firstRaise_of_unknownOpcode hpc h)

end UnknownOpcode

/-- Settles O15: a byte outside the nine is the cycle's first raise, a recorded UnknownOpcode was the cycle's first
raise, and zero is outside the nine. -/
theorem unknownOpcodeIsRaised : Obligations.UnknownOpcodeIsRaised := by
  unfold Obligations.UnknownOpcodeIsRaised
  refine ⟨fun s => step_of_unknownOpcode, fun s t r hr e hf hrec hcause => ?_, length_filter_not_mem_opcodes,
    fun s hr hpc hzero => ?_⟩
  · obtain ⟨raise, hraise, rfl⟩ := step_eq_takeFault hr e hf
    cases hrec
    exact unknownOpcode_of_firstRaise hraise hcause
  · have hout : s.mem.read s.pc.toNat ∉ opcodes := by rw [hzero]; decide
    simpa [hzero] using step_of_unknownOpcode hr hpc hout

/-! ### The trace port -/

section Trace

variable {s : State}

theorem trace_of_fetched {op a b : Byte} (hr : s.status = .running) (h : fetch s = .ok (op, a, b)) :
    s.trace = some ⟨s.pc, op, a, b, s.x⟩ := by
  simp only [State.trace, hr, h, if_true]

theorem trace_of_fetch_raise {r : Raise} (h : fetch s = .error r) : s.trace = none := by
  simp only [State.trace, h, ite_self]

theorem trace_of_stopped (h : s.status ≠ .running) : s.trace = none := if_neg h

end Trace

/-- Settles O48: the fetch answers the three bytes up to pc 253 and raises past it. -/
theorem tracePresentsFetchedCycle : Obligations.TracePresentsFetchedCycle := by
  unfold Obligations.TracePresentsFetchedCycle
  exact fun s => ⟨fun hr hpc => trace_of_fetched hr (fetch_eq_ok hpc),
    fun h => trace_of_fetch_raise (fetch_eq_error h), trace_of_stopped⟩

/-! ### The exit codes -/

section ExitCode

variable {s : State}

theorem exitCode_of_running (h : s.status = .running) : s.exitCode = none := by
  simp only [State.exitCode, h]

theorem exitCode_of_halted (h : s.status = .halted) : s.exitCode = some 0 := by
  simp only [State.exitCode, h]

theorem exitCode_of_faulted {r : FaultRecord} (h : s.status = .faulted) (hrec : s.fault = some r) :
    s.exitCode = some r.cause.code := by
  simp only [State.exitCode, h, hrec, faultCode]

/-- The code of a cause a step can record is 1 or 2 (R93, R95, R96). -/
theorem RecordOk.code_cases {r : FaultRecord} (h : RecordOk s r) : r.cause.code = 1 ∨ r.cause.code = 2 := by
  obtain ⟨_, _, ⟨hcause, _⟩ | ⟨hcause, _⟩⟩ := h
  · exact .inl (congrArg Cause.code hcause)
  · exact .inr (congrArg Cause.code hcause)

theorem Inv.exitCode_cases_of_faulted (h : Inv s) (hf : s.status = .faulted) :
    s.exitCode = some 1 ∨ s.exitCode = some 2 := by
  obtain ⟨r, hrec, hok⟩ := h.fault_record hf
  rw [exitCode_of_faulted hf hrec]
  exact hok.code_cases.imp (congrArg some) (congrArg some)

/-- Under the invariant, exit code 0 is HALTED's alone (R110). -/
theorem Inv.exitCode_eq_zero_iff (h : Inv s) : s.exitCode = some 0 ↔ s.status = .halted := by
  refine ⟨fun hzero => ?_, exitCode_of_halted⟩
  cases hs : s.status with
  | halted => rfl
  | running => cases (exitCode_of_running hs).symm.trans hzero
  | faulted => rcases h.exitCode_cases_of_faulted hs with e | e <;> cases e.symm.trans hzero

end ExitCode

/-- Settles O49: the invariant limits a fault record to the causes of codes 1 and 2; a program that is too long is
not loaded. -/
theorem exitCodesTellTheEnd : Obligations.ExitCodesTellTheEnd := by
  unfold Obligations.ExitCodesTellTheEnd
  refine ⟨fun s h => ⟨h.exitCode_eq_zero_iff, h.exitCode_cases_of_faulted, exitCode_of_running⟩,
    fun spInit bytes hlong => ?_⟩
  rw [boot, load_of_too_long hlong]
  rfl

end Sys2Proof
end

section
/-! PROOFS. Machine creation: what every register reads, and that it gives a state from which a run can start, with
the invariant, before and after the load. -/

namespace Sys2Proof

open Machine

/-- The register file at machine creation: SP_INIT in the stack pointer, 0 in every other register (R18, D1, D2). -/
theorem reg_create (spInit : Byte) (i : RegIdx) :
    (State.create spInit).reg i = if i = 7 then spInit else 0#8 := by
  by_cases h : i = 7
  · subst h
    rfl
  · have hne : 7 ≠ i.val := fun e => h (Fin.ext e.symm)
    simp [State.reg, State.create, h, hne]

/-- Machine creation gives a RUNNING state without a fault record, on an empty memory (R111). -/
theorem inv_create (spInit : Byte) : Inv (State.create spInit) :=
  .of_running (Memory.create_wf spInit) rfl rfl

/-- Settles O44: a load that succeeds starts a run, and a run starts with the invariant. -/
theorem invariantHoldsAfterLoad : Obligations.InvariantHoldsAfterLoad := by
  unfold Obligations.InvariantHoldsAfterLoad
  exact fun _ _ _ hboot => inv_of_boot hboot

/-- Settles O23: the registers read as `reg_create` says; every other piece of state is what creation writes. -/
theorem resetPutsEveryState : Obligations.ResetPutsEveryState := by
  unfold Obligations.ResetPutsEveryState
  exact ⟨fun spInit => ⟨reg_create spInit, rfl, fun _ => rfl, rfl, rfl, rfl⟩, rfl⟩

/-- Settles O43: the state at reset is a created one, with the default SP_INIT. -/
theorem invariantHoldsAtReset : Obligations.InvariantHoldsAtReset := by
  unfold Obligations.InvariantHoldsAtReset
  exact ⟨inv_create, inv_create Config.spInit⟩

end Sys2Proof
end
